-- ==== Sys2Proof/Word.lean ====
section
/-! DEFINITION. Words of a stated width.

Spec 00_scope.md R13: "Every quantity is a mathematical non-negative integer unless a width is stated. A W-bit
word is an integer in [0, 2^W - 1]". The widths are build-time parameters (R5 to R10), so a word is a `Nat` and its
width stands in `Config`. The accessors of Machine/Ops.lean cut every word they read or write to its field's width:
log entry 2 (DESIGN CHOICE). -/

namespace Sys2Proof

/-- `a` is an `n`-bit word (R13). -/
abbrev IsWord (n a : Nat) : Prop := a < 2 ^ n

end Sys2Proof
end

