-- ==== Sys2Proof/Config.lean ====
section
/-! DEFINITION. What is fixed when the block is built (00_scope.md section 4), and the free values.

The free values (`opaque`, no body) stand for what the spec says is "any value" (93_implementation_defined.md
U7): nothing can be proved about one of them beyond the width it is cut to. -/

namespace Sys2Proof

/-- Which non-null references name a record (R11): every one (the default), or those listed. -/
inductive Populated where
  | every
  | only (refs : List Nat)
  deriving DecidableEq, Repr

/-- The implementation parameters of 00_scope.md R5 to R11, under the spec's names. -/
structure Config where
  /-- Word width in bits (R5). -/
  W : Nat
  /-- Number of words of every record (R6). -/
  CAPACITY : Nat
  /-- Width of the `len` field (R8). -/
  LEN_BITS : Nat
  /-- Width of a reference (R9). -/
  REF_BITS : Nat
  /-- Width of a shift amount (R10). -/
  SA_BITS : Nat
  /-- Number of engines on the storage (R11). -/
  NENGINES : Nat
  /-- Which references name a record (R11). -/
  populated : Populated
  deriving DecidableEq, Repr

/-- `CAPBITS`, the total bit capacity (R7). -/
abbrev Config.capBits (c : Config) : Nat := c.CAPACITY * c.W

/-- Width of a command word (R60). -/
abbrev Config.cmdBits (c : Config) : Nat := c.REF_BITS + c.SA_BITS

/-- `Populated` is a subset of the non-null references (R11). -/
abbrev Populated.InRange (refBits : Nat) : Populated → Prop
  | .every => True
  | .only refs => ∀ r ∈ refs, 1 ≤ r ∧ r < 2 ^ refBits

/-- The constraints R5 to R11 put on the parameters. -/
abbrev Config.Wf (c : Config) : Prop :=
  1 ≤ c.W ∧ 1 ≤ c.CAPACITY ∧ c.CAPACITY < 2 ^ c.LEN_BITS ∧ 1 ≤ c.REF_BITS ∧ 1 ≤ c.SA_BITS ∧
    1 ≤ c.NENGINES ∧ c.populated.InRange c.REF_BITS

/-- The default of `LEN_BITS`: the least integer with `2^LEN_BITS > CAPACITY` (R8). -/
def Config.leastLenBits (capacity : Nat) : Nat := Nat.log2 capacity + 1

/-- The reference configuration (R12), which State.reset is built with. -/
def Config.reference : Config where
  W := 64
  CAPACITY := 4
  LEN_BITS := 3
  REF_BITS := 32
  SA_BITS := 64
  NENGINES := 1
  populated := .every

/-- FREE VALUE (R35, U7): what field number `rank` of record `ref` holds after power-up, before anything has
written it. Field 0 is `len`, field `i + 1` is word `i`. Log entry 4. -/
opaque Config.powerUp (ref rank : Nat) : Nat

/-- FREE VALUE (R36, U7): the k-th value drawn for a field of a record whose command reset abandoned. Log entry 5. -/
opaque Config.freeValue (k : Nat) : Nat

end Sys2Proof
end

