-- ==== Sys2Proof/Syntax.lean ====
section
/-! DEFINITION. The instructions: one constructor for the one row of spec/opcode_table.json. -/

namespace Sys2Proof

/-- The one instruction, `SHL`: `shift_left(ref, shamt)` (R60, R63, R80). The two fields of the command word are the
two operands; their widths are checked by `WellFormed`. -/
inductive Instr where
  | shl (ref : Nat) (shamt : Nat)
  deriving DecidableEq, Repr

end Sys2Proof
end

