-- ==== Sys2Proof/WellFormed.lean ====
section
/-! DEFINITION. Which instructions a command word can carry: each operand fits its field (R60 to R62). -/

namespace Sys2Proof

/-- `REF` fits `REF_BITS` bits and `SHAMT` fits `SA_BITS` bits (R61, R62). Nothing else is asked: there is no
reserved or illegal command (R65). -/
def WellFormed (c : Config) : Instr → Bool
  | .shl ref shamt => decide (IsWord c.REF_BITS ref) && decide (IsWord c.SA_BITS shamt)

end Sys2Proof
end

