-- ==== Sys2Proof/Decode.lean ====
section
/-! DEFINITION. The command word: decoder and encoder (30_encoding.md section 1).

The command word is ONE number, and the spec gives it no bytes (20_memory.md R41, R53), so the decoder reads a number.
It is total: every command word decodes (R65); a number that is wider than the command port is no command word and is
rejected by name (log entry 19). -/

namespace Sys2Proof

/-- Why a number is not decoded. -/
inductive DecodeError where
  /-- More bits than `REF_BITS + SA_BITS`: the command port cannot carry it (R60). -/
  | notACommandWord
  deriving DecidableEq, Repr

/-- `bits[hi:lo]` of an integer (R14). -/
def bits (hi lo a : Nat) : Nat := (a >>> lo) % 2 ^ (hi + 1 - lo)

/-- `{a, b}`, concatenation with `a` in the high bits and `b` of width `n` (R14). -/
def concatBits (n a b : Nat) : Nat := (a <<< n) ||| b

/-- `REF <- c[REF_BITS + SA_BITS - 1 : SA_BITS]`, `SHAMT <- c[SA_BITS - 1 : 0]` (R60, R66). There is no opcode field to
test (R63). -/
def decode (c : Config) (cmd : Nat) : Except DecodeError Instr :=
  if IsWord c.cmdBits cmd then
    .ok (.shl (bits (c.REF_BITS + c.SA_BITS - 1) c.SA_BITS cmd) (bits (c.SA_BITS - 1) 0 cmd))
  else .error .notACommandWord

/-- `CMD = {REF, SHAMT}` (R60): the command word of an instruction. -/
def encode (c : Config) : Instr → Nat
  | .shl ref shamt => concatBits c.SA_BITS ref shamt

/-- The host's window on the decoder: the instruction read from `nbits` bits `w`, numbered as the opcode table numbers
them (bit 0 is the least significant bit of the command word), in the reference configuration the table is written for. -/
def decodeTableWord (nbits w : Nat) : Option Instr :=
  match decode Config.reference (w % 2 ^ nbits) with
  | .ok i => some i
  | .error _ => none

end Sys2Proof
end

