-- ==== Sys2Proof/Machine/State.lean ====
section
/-! DEFINITION. The state of the machine as plain data (10_state.md), the reasons a step can stop, and reset. -/

namespace Sys2Proof.Machine

/-- The three statuses of a response (R64). Code 3 has no constructor: it is never emitted (U6). -/
inductive Status where
  | success
  | nullArgument
  | overflow
  deriving DecidableEq, Repr

/-- A field selector of a record: its `len`, or its word `i` (R40). -/
inductive Field where
  | len
  | word (i : Nat)
  deriving DecidableEq, Repr

/-- A storage address, the pair `(r, f)` of R40. -/
structure Addr where
  ref : Nat
  field : Field
  deriving DecidableEq, Repr

/-- The phase of an engine (R28): `IDLE`, or `BUSY(ref, shamt)` with the command in flight. -/
inductive Phase where
  | idle
  | busy (ref : Nat) (shamt : Nat)
  deriving DecidableEq, Repr

/-- One response: its only field is the status (R64). The engine's number says which presenter it goes back to (R140). -/
structure Response where
  engine : Nat
  status : Status
  deriving DecidableEq, Repr

/-- What the world outside the block, or the choice of which engine moves next, does in one step. -/
inductive Event where
  /-- The host presents command word `cmd` to `engine` (R66). -/
  | present (engine cmd : Nat)
  /-- `engine` performs COMPLETE now (R28). -/
  | complete (engine : Nat)
  /-- The host reads a field of a record (R43, R48). -/
  | read (a : Addr)
  /-- The host writes a field of a record (R43, R48). -/
  | write (a : Addr) (v : Nat)
  /-- The host takes the oldest pending response (R140). -/
  | take
  /-- Reset is pulled (R35, R36, R150). -/
  | reset
  deriving DecidableEq, Repr

/-- The storage `S` (R21, R40): the fields that have been written since power-up, each with its contents, addresses
strictly rising (`Memory.wf`). A field not listed holds its power-up contents, a free value (R35; log entries 3 and 4). -/
abbrev Memory := List (Addr × Nat)

/-- The whole machine. -/
structure State where
  /-- The build-time parameters (R5 to R12, R34); no step changes them (log entry 1). -/
  cfg : Config
  /-- One phase for each engine, in the order of their numbers (R28). -/
  phases : List Phase
  /-- The storage (R21). -/
  storage : Memory
  /-- Responses emitted and not yet taken, oldest first (R64; log entry 12). -/
  responses : List Response
  /-- MODEL'S OWN: what the host's reads returned, oldest first (log entry 13). -/
  readData : List (Addr × Nat)
  /-- MODEL'S OWN: what happens next, oldest first: the input of R34 and the interleaving of R140 (log entry 6). -/
  agenda : List Event
  /-- MODEL'S OWN: the engine whose COMPLETE is being performed (log entry 11). -/
  active : Nat
  /-- MODEL'S OWN: how many free values have been drawn (log entry 5). -/
  drawn : Nat
  deriving DecidableEq, Repr

/-- A record `(words, len)` as a value (R21), least significant word first (R22). -/
structure Record where
  words : List Nat
  len : Nat
  deriving DecidableEq, Repr

/-- Why the machine stops with a fault. A fault ends the run, so it is never cleared (U1). -/
inductive Fault where
  /-- A host access to a record while a command naming it is in flight; raised by `hostRead` and `hostWrite`. The spec
  asks for this fault (R51, R141, U1). SAFE. -/
  | concurrentAccess
  /-- A command presented with the reference of a command in flight; raised by `present`. The spec asks for this fault
  (R51, R141, R153, U1). SAFE. -/
  | concurrentCommand
  /-- A host access to something that is no address of the storage (R40, R44); raised by `hostRead` and `hostWrite`.
  SAFE (log entry 16). -/
  | noSuchAddress
  /-- A command presented to an engine number at or above `NENGINES` (R11); raised by `present`. SAFE (log entry 16). -/
  | noSuchEngine
  deriving DecidableEq, Repr

/-- Why the model gives something no meaning. -/
inductive Refusal where
  /-- The instruction has no meaning in this model; only an arm of `exec` may say so. SAFE. -/
  | notModelled (mnemonic : String)
  /-- A command whose non-null reference names no record; raised by `SHL` and when it is presented. The spec asks for
  this refusal (R44, R92, U3). SAFE. -/
  | unpopulatedReference
  /-- A command on a record that is not a valid value; raised by `SHL` and when it is presented. The spec asks for this
  refusal (R92, U4). SAFE. -/
  | invalidRecord
  /-- A number wider than the command port presented as a command word; raised by `present`. SAFE (log entry 19). -/
  | notACommandWord
  deriving DecidableEq, Repr

/-- The outcome of a step of this machine. -/
abbrev Result := Host.Outcome State Fault Refusal

/-- A machine built with the parameters `c`, right after reset (R35, R150): every engine `IDLE`, no response pending,
and no storage field written. -/
def State.resetOf (c : Config) : State where
  cfg := c
  phases := List.replicate c.NENGINES .idle
  storage := []
  responses := []
  readData := []
  agenda := []
  active := 0
  drawn := 0

/-- The machine right after reset, in the reference configuration (R12). -/
def State.reset : State := State.resetOf Config.reference

end Sys2Proof.Machine
end

