-- ==== Sys2Proof/Machine/Operands.lean ====
section
/-! DEFINITION. The operands of SHL: integer operators, the record as a value, and the split of the shift amount
(00_scope.md R14 to R16, 10_state.md R21 to R26, 41_datapath.md R100, R101). -/

namespace Sys2Proof.Machine

/-- `trunc_W(a) = a mod 2^W` (R14). -/
def trunc (w a : Nat) : Nat := a % 2 ^ w

/-- `blen(x)`, the bit length: 0 for 0, else the index of the highest set bit plus one (R15). -/
def blen (x : Nat) : Nat := if x = 0 then 0 else Nat.log2 x + 1

/-- `words[i]` of a record. Every use has `i < CAPACITY` (R103 d). -/
def Record.word (v : Record) (i : Nat) : Nat := v.words.getD i 0

/-- The stored shape of a record (R21): `CAPACITY` words of `W` bits, a `len` of `LEN_BITS` bits. -/
abbrev Record.Shaped (c : Config) (v : Record) : Prop :=
  v.words.length = c.CAPACITY ∧ (∀ x ∈ v.words, IsWord c.W x) ∧ IsWord c.LEN_BITS v.len

/-- The storage invariant of R24: `len <= CAPACITY` and no leading zero word. -/
abbrev Record.Valid (c : Config) (v : Record) : Prop :=
  v.len ≤ c.CAPACITY ∧ (0 < v.len → v.word (v.len - 1) ≠ 0)

/-- The sum of the lowest `n` words, word `i` with weight `2^(W*i)` (R22). -/
def Record.weightedSum (c : Config) (v : Record) : Nat → Nat
  | 0 => 0
  | n + 1 => v.weightedSum c n + v.word n * 2 ^ (c.W * n)

/-- `magnitude(v)`: significant words only (R16). -/
def Record.magnitude (c : Config) (v : Record) : Nat := v.weightedSum c v.len

/-- `bitlen(v)` (R16, R101). -/
def Record.bitlen (c : Config) (v : Record) : Nat :=
  if v.len = 0 then 0 else (v.len - 1) * c.W + blen (v.word (v.len - 1))

/-- Equality as values (R26): the same `len` and the same significant words. -/
abbrev Record.SameValue (v u : Record) : Prop :=
  v.len = u.len ∧ ∀ i < v.len, v.word i = u.word i

/-- `ws = s div W`, from the full shift amount (R100). -/
def wordShift (c : Config) (s : Nat) : Nat := s / c.W

/-- `bs = s mod W` (R100). -/
def bitShift (c : Config) (s : Nat) : Nat := s % c.W

/-- `t = len + ws`, the index just above the highest moved word (R103). -/
def topIndex (c : Config) (v : Record) (s : Nat) : Nat := v.len + wordShift c s

end Sys2Proof.Machine
end

