-- ==== Sys2Proof/Machine/Flags.lean ====
section
/-! DEFINITION. The overflow detector and the statuses.

The block has no flags and no condition codes (10_state.md R31): what a flag computation would be elsewhere is here
the choice of the status (40_shift_left.md R81, 41_datapath.md R101, R102) and its two-bit code (30_encoding.md R64). -/

namespace Sys2Proof.Machine

/-- `ovf = (len > 0) and (L + s > CAPBITS)`, on mathematical integers (R102). -/
def overflows (c : Config) (v : Record) (s : Nat) : Bool :=
  decide (0 < v.len) && decide (c.capBits < v.bitlen c + s)

/-- The headroom `H = CAPBITS - L` (R102). -/
def headroom (c : Config) (v : Record) : Nat := c.capBits - v.bitlen c

/-- The form of the overflow test that cannot wrap: `ovf = (len > 0) and (s > CAPBITS - L)` (R102). -/
def overflowsByHeadroom (c : Config) (v : Record) (s : Nat) : Bool :=
  decide (0 < v.len) && decide (headroom c v < s)

/-- The five outcomes of R81, in their order. -/
inductive ShlCase where
  | nullReference
  | zeroShift
  | zeroValue
  | overflow
  | shifted
  deriving DecidableEq, Repr

/-- Which of the five cases applies to a command that meets the precondition; the first that matches (R81). `v` is
`S[ref]`, and is not looked at in the first two cases. -/
def shlCase (c : Config) (ref : Nat) (s : Nat) (v : Record) : ShlCase :=
  if ref = 0 then .nullReference
  else if s = 0 then .zeroShift
  else if v.len = 0 then .zeroValue
  else if overflows c v s then .overflow
  else .shifted

/-- The status of each case (R81). -/
def ShlCase.status : ShlCase → Status
  | .nullReference => .nullArgument
  | .zeroShift => .success
  | .zeroValue => .success
  | .overflow => .overflow
  | .shifted => .success

/-- `STATUS[1:0]`, the response word (R64). -/
def Status.code : Status → BitVec 2
  | .success => 0
  | .nullArgument => 1
  | .overflow => 2

/-- What a host reads from a response word: code 3 is no BSL response (R65). -/
def Status.ofCode (w : BitVec 2) : Option Status :=
  if w = 0 then some .success else if w = 1 then some .nullArgument else if w = 2 then some .overflow else none

end Sys2Proof.Machine
end

