-- ==== Sys2Proof/Machine/Datapath.lean ====
section
/-! DEFINITION. The datapath of SHL as formulas over the record on entry (41_datapath.md R104 to R113,
40_shift_left.md R90): word-boundary handler, barrel shifter, renormaliser. -/

namespace Sys2Proof.Machine

/-- `cin(k)`: the high `bs` bits of the word below, moved to the bottom; none when `bs = 0` (R106) or for the lowest
word (R108). -/
def carryIn (c : Config) (v : Record) (bs k : Nat) : Nat :=
  if bs = 0 ∨ k = 0 then 0 else v.word (k - 1) >>> (c.W - bs)

/-- `cout`: the bits that leave the top significant word (R103 b, R109). -/
def carryOut (c : Config) (v : Record) (bs : Nat) : Nat :=
  if bs = 0 then 0 else v.word (v.len - 1) >>> (c.W - bs)

/-- The result words in closed form (R90, R110). -/
def newWord (c : Config) (v : Record) (s : Nat) (j : Nat) : Nat :=
  let ws := wordShift c s
  let bs := bitShift c s
  let t := topIndex c v s
  if j < ws then 0
  else if j < t then trunc c.W (v.word (j - ws) <<< bs) ||| carryIn c v bs (j - ws)
  else if j = t ∧ t < c.CAPACITY ∧ bs ≠ 0 then carryOut c v bs
  else v.word j

/-- `len' = t + (1 if cout != 0 else 0)` (R112). -/
def newLen (c : Config) (v : Record) (s : Nat) : Nat :=
  topIndex c v s + if carryOut c v (bitShift c s) ≠ 0 then 1 else 0

/-- How many words the success path writes: indices `0 .. t-1`, and `t` when `bs != 0` and `t < CAPACITY` (R46). -/
def writtenWords (c : Config) (v : Record) (s : Nat) : Nat :=
  topIndex c v s + if bitShift c s ≠ 0 ∧ topIndex c v s < c.CAPACITY then 1 else 0

/-- The indices written, in the descending order of R47 c and R114. -/
def writtenIndices (c : Config) (v : Record) (s : Nat) : List Nat :=
  (List.range (writtenWords c v s)).reverse

/-- The shifted record (case 5): all `CAPACITY` words and the new length (R90). -/
def shifted (c : Config) (v : Record) (s : Nat) : Record where
  words := (List.range c.CAPACITY).map (newWord c v s)
  len := newLen c v s

/-- The pure function of R90. -/
def shl (c : Config) (v : Record) (s : Nat) : Status × Record :=
  if s = 0 then (.success, v)
  else if v.len = 0 then (.success, v)
  else if c.capBits < v.bitlen c + s then (.overflow, v)
  else (.success, shifted c v s)

/-- The scan of DOC0's step 7, downward over the `n` lowest words: the index of the first non-zero word plus one, or 0
(R113). -/
def scanDown (v : Record) : Nat → Nat
  | 0 => 0
  | n + 1 => if v.word n ≠ 0 then n + 1 else scanDown v n

end Sys2Proof.Machine
end

