-- ==== Sys2Proof/Machine/Ops.lean ====
section
/-! DEFINITION. The named operations over the storage and the engines: the four access primitives (R17), records,
phases, ownership (R51), the contract check (R92) and the one way a command reports (R17, R64, R136). -/

namespace Sys2Proof.Machine

/-! ### Addresses -/

/-- The place of a field in its record, for the order of the storage list; no layout of the hardware (R44). -/
def Field.rank : Field → Nat
  | .len => 0
  | .word i => i + 1

/-- The order in which the storage lists addresses. -/
abbrev Addr.Before (a b : Addr) : Prop :=
  a.ref < b.ref ∨ (a.ref = b.ref ∧ a.field.rank < b.field.rank)

/-- Width of a field (R21, R43). -/
def fieldBits (c : Config) : Field → Nat
  | .len => c.LEN_BITS
  | .word _ => c.W

/-- `r` is in `Populated` (R11, R44): non-null, a `REF_BITS`-bit number, and the name of a record. -/
def isPopulated (c : Config) (r : Nat) : Bool :=
  decide (1 ≤ r) && decide (IsWord c.REF_BITS r) &&
    match c.populated with
    | .every => true
    | .only refs => refs.contains r

/-- The addresses of the storage (R40): a populated reference, and `LEN` or `WORD i` with `i < CAPACITY`. -/
def isAddress (c : Config) (a : Addr) : Bool :=
  isPopulated c a.ref &&
    match a.field with
    | .len => true
    | .word i => decide (i < c.CAPACITY)

/-! ### The storage -/

/-- The canonical form of the storage: addresses strictly rising. -/
abbrev Memory.wf (m : Memory) : Prop := m.Pairwise fun x y => x.1.Before y.1

/-- What has been written to `a` since power-up, if anything has. -/
def Memory.lookup : Memory → Addr → Option Nat
  | [], _ => none
  | (b, v) :: rest, a => if a = b then some v else Memory.lookup rest a

/-- Put `v` at `a`, keeping the addresses rising. -/
def Memory.insert : Memory → Addr → Nat → Memory
  | [], a, v => [(a, v)]
  | (b, w) :: rest, a, v =>
    if a = b then (a, v) :: rest
    else if a.Before b then (a, v) :: (b, w) :: rest
    else (b, w) :: Memory.insert rest a v

/-- `MemRead(a, width)` (R17, R43): the whole field; what power-up left where nothing has been written (R35). -/
def memRead (c : Config) (m : Memory) (a : Addr) : Nat :=
  trunc (fieldBits c a.field) ((Memory.lookup m a).getD (Config.powerUp a.ref a.field.rank))

/-- `MemWrite(a, width, v)` (R17, R43): the whole field. -/
def memWrite (c : Config) (m : Memory) (a : Addr) (v : Nat) : Memory :=
  Memory.insert m a (trunc (fieldBits c a.field) v)

/-- `WordRead(r, i)` (R17). -/
def wordRead (s : State) (r : Nat) (i : Nat) : Nat := memRead s.cfg s.storage ⟨r, .word i⟩

/-- `LenRead(r)` (R17). -/
def lenRead (s : State) (r : Nat) : Nat := memRead s.cfg s.storage ⟨r, .len⟩

/-- `MemWrite` as an operation of the machine. -/
def State.write (s : State) (a : Addr) (v : Nat) : State :=
  { s with storage := memWrite s.cfg s.storage a v }

/-- `WordWrite(r, i, v)` (R17). -/
def State.wordWrite (s : State) (r : Nat) (i : Nat) (v : Nat) : State := s.write ⟨r, .word i⟩ v

/-- `LenWrite(r, n)` (R17). -/
def State.lenWrite (s : State) (r : Nat) (n : Nat) : State := s.write ⟨r, .len⟩ n

/-- `S[r]` in the storage `m`, the stored contents themselves (R17, R21). -/
def recordOf (c : Config) (m : Memory) (r : Nat) : Record where
  words := (List.range c.CAPACITY).map fun i => memRead c m ⟨r, .word i⟩
  len := memRead c m ⟨r, .len⟩

/-- `S[r]`. -/
def record (s : State) (r : Nat) : Record := recordOf s.cfg s.storage r

/-! ### Engines -/

/-- The phase of engine `e`. -/
def phaseOf (s : State) (e : Nat) : Phase := s.phases.getD e .idle

/-- `phase <- p` for engine `e`. -/
def State.setPhase (s : State) (e : Nat) (p : Phase) : State := { s with phases := s.phases.set e p }

/-- The phase holds a command on the record `r`. -/
def Phase.holds (r : Nat) : Phase → Bool
  | .idle => false
  | .busy ref _ => ref = r

/-- The record `S[r]` is owned by an engine: `r` is non-null and a command naming it is in flight (R51). Ownership ends
at COMPLETE, as R51 and U1 have it, and not when the host takes the response, as R153 words it (DEDUCED, log entry 22). -/
def owned (s : State) (r : Nat) : Bool := decide (r ≠ 0) && s.phases.any (Phase.holds r)

/-- The lowest-numbered engine with a command in flight. -/
def firstBusy (s : State) : Option Nat := s.phases.findIdx? (· ≠ .idle)

/-- The precondition of `SHL` (R80): a non-null reference is populated and names a valid value. -/
abbrev Precondition (s : State) (ref : Nat) : Prop :=
  ref ≠ 0 → isPopulated s.cfg ref = true ∧ (record s ref).Valid s.cfg

/-- The contract check of R92: what the model refuses, and the hardware never checks. -/
def contractBreach (s : State) (ref : Nat) : Option Refusal :=
  if ref = 0 then none
  else if isPopulated s.cfg ref = false then some .unpopulatedReference
  else if (record s ref).Valid s.cfg then none
  else some .invalidRecord

/-- `respond(st)` (R17, R80): emit the response word, end the command, `phase <- IDLE`. The block's only way to report,
for an error as for a success: nothing is saved and control goes nowhere (R136). -/
def respond (st : Status) (s : State) : State :=
  { s.setPhase s.active .idle with responses := s.responses ++ [⟨s.active, st⟩] }

/-! ### Reset -/

/-- The contents of `S[r]` after its command was abandoned by reset (R36): every field a free value. -/
def abandonRecord (r : Nat) (s : State) : State :=
  let s' := (List.range s.cfg.CAPACITY).foldl
    (fun u i => u.wordWrite r i (Config.freeValue (s.drawn + 1 + i))) (s.lenWrite r (Config.freeValue s.drawn))
  { s' with drawn := s.drawn + 1 + s.cfg.CAPACITY }

/-- The record named by an abandoned command becomes unspecified; with no record named, nothing does (R36). -/
def abandon (s : State) : Phase → State
  | .idle => s
  | .busy ref _ => if isPopulated s.cfg ref then abandonRecord ref s else s

/-- Reset (R35, R36, R150): every command in flight is abandoned without a response, every engine is `IDLE`, no response
is pending, and no other storage field is touched. -/
def pullReset (s : State) : State :=
  let s' := s.phases.foldl abandon s
  { s' with phases := s.phases.map (fun _ => .idle), responses := [] }

end Sys2Proof.Machine
end

