-- ==== Sys2Proof/Machine/ShiftLeft.lean ====
section
/-! DEFINITION. The meaning of SHL (40_shift_left.md R80): the COMPLETE step of the engine `active`. -/

namespace Sys2Proof.Machine

/-- Lines 8 to 10 of R80: the words in descending order, each from the record on entry `v`, then `len`. -/
def storeShifted (ref : Nat) (v : Record) (n : Nat) (s : State) : State :=
  ((writtenIndices s.cfg v n).foldl (fun u j => u.wordWrite ref j (newWord s.cfg v n j)) s).lenWrite ref
    (newLen s.cfg v n)

/-- The pseudocode of R80, for a command that meets the precondition. The order of the tests is normative (R81). -/
def shlComplete (ref : Nat) (n : Nat) (s : State) : State :=
  match shlCase s.cfg ref n (record s ref) with
  | .nullReference => respond .nullArgument s
  | .zeroShift => respond .success s
  | .zeroValue => respond .success s
  | .overflow => respond .overflow s
  | .shifted => respond .success (storeShifted ref (record s ref) n s)

/-- `SHL` (R80): refused outside the precondition (R92), else the pseudocode. -/
def execShl (ref : Nat) (shamt : Nat) (s : State) : Result :=
  match contractBreach s ref with
  | some why => .refused why
  | none => .next (shlComplete ref shamt s)

end Sys2Proof.Machine
end

