-- ==== Sys2Proof/Machine/Events.lean ====
section
/-! DEFINITION. What one step of the world does to the machine: ACCEPT, COMPLETE, host accesses, taking a response,
reset. Each is given the state with its event already taken off the agenda. -/

namespace Sys2Proof.Machine

/-- COMPLETE of engine `e` (R28): the instruction latched in its phase is executed. An `IDLE` engine has nothing to
complete (log entry 15). -/
def complete (e : Nat) (s : State) : Result :=
  match phaseOf s e with
  | .idle => .next s
  | .busy ref shamt => exec (.shl ref shamt) { s with active := e }

/-- ACCEPT of a decoded command by an `IDLE` engine (R66): it is copied into the phase, and nothing else happens. -/
def accept (e : Nat) (i : Instr) (s : State) : Result :=
  match i with
  | .shl ref shamt =>
    match contractBreach s ref with
    | some why => .refused why
    | none => .next (s.setPhase e (.busy ref shamt))

/-- The host presents the command word `cmd` to engine `e`. A word the port cannot carry and an engine that is not
there stop the run; a second command on an owned record is the fault of R51, R141 and R153; a `BUSY` engine accepts
nothing (R28), so the presentation waits at the head of the agenda while that engine completes (log entry 8). -/
def present (e cmd : Nat) (s : State) : Result :=
  if s.cfg.NENGINES ≤ e then .fault .noSuchEngine
  else
    match decode s.cfg cmd with
    | .error .notACommandWord => .refused .notACommandWord
    | .ok (.shl ref shamt) =>
      if owned s ref then .fault .concurrentCommand
      else
        match phaseOf s e with
        | .idle => accept e (.shl ref shamt) s
        | .busy _ _ => complete e { s with agenda := .present e cmd :: s.agenda }

/-- The host reads a field (R43, R48), unless the record is owned (R51). -/
def hostRead (a : Addr) (s : State) : Result :=
  if isAddress s.cfg a = false then .fault .noSuchAddress
  else if owned s a.ref then .fault .concurrentAccess
  else .next { s with readData := s.readData ++ [(a, memRead s.cfg s.storage a)] }

/-- The host writes a field (R43, R48), unless the record is owned (R51). -/
def hostWrite (a : Addr) (v : Nat) (s : State) : Result :=
  if isAddress s.cfg a = false then .fault .noSuchAddress
  else if owned s a.ref then .fault .concurrentAccess
  else .next (s.write a v)

/-- The host takes the oldest pending response, if there is one (log entries 12 and 15). -/
def takeResponse (s : State) : State := { s with responses := s.responses.tail }

/-- One event. -/
def perform (ev : Event) (s : State) : Result :=
  match ev with
  | .present e cmd => present e cmd s
  | .complete e => complete e s
  | .read a => hostRead a s
  | .write a v => hostWrite a v s
  | .take => .next (takeResponse s)
  | .reset => .next (pullReset s)

/-- With nothing on the agenda: the lowest-numbered `BUSY` engine completes (R156: every accepted command completes;
log entry 7); with no command in flight nothing happens (R20). -/
def progress (s : State) : Result :=
  match firstBusy s with
  | some e => complete e s
  | none => .next s

/-- The state in which the very next step executes the command word `cmd` on engine 0: the word is latched in that
engine's phase, as ACCEPT does, and its COMPLETE is next (log entry 17). A number that is no command word is presented,
and rejected there. -/
def placeCommand (s : State) (cmd : Nat) : State :=
  match decode s.cfg cmd with
  | .ok (.shl ref shamt) => { s.setPhase 0 (.busy ref shamt) with agenda := .complete 0 :: s.agenda }
  | .error .notACommandWord => { s with agenda := .present 0 cmd :: s.agenda }

end Sys2Proof.Machine
end

