-- ==== Sys2Proof/Machine/Step.lean ====
section
/-! DEFINITION. One step of the machine: the next event of the agenda, or the machine's own progress. -/

namespace Sys2Proof.Machine

/-- One step. -/
def step (s : State) : Host.Outcome State Fault Refusal :=
  match s.agenda with
  | [] => progress s
  | ev :: rest => perform ev { s with agenda := rest }

/-- `s` with the `nbits`-bit command word `w` where the next step executes it (log entry 17). -/
def State.withFetchWord (s : State) (nbits w : Nat) : State := placeCommand s (w % 2 ^ nbits)

end Sys2Proof.Machine
end

