-- ==== Sys2Proof/Machine/Sequences.lean ====
section
/-! DEFINITION. The two reference access sequences of 41_datapath.md (R115, R116), access by access, behind the tests of
R80. They stand BESIDE the meaning of SHL, which is the closed form (log entry 14): statements say that they leave the
same record, answer the same status and keep the order of R47 and the access sets of R46. -/

namespace Sys2Proof.Machine

/-- One access on the storage channel (R17, R40). -/
inductive Access where
  | read (a : Addr)
  | write (a : Addr) (v : Nat)
  deriving DecidableEq, Repr

/-- The storage as one command sees it, and the accesses it has made, oldest first. -/
structure Port where
  mem : Memory
  log : List Access
  deriving DecidableEq, Repr

/-- `MemRead` at the port. -/
def Port.read (c : Config) (a : Addr) (p : Port) : Nat × Port :=
  (memRead c p.mem a, { p with log := p.log ++ [.read a] })

/-- `MemWrite` at the port. -/
def Port.write (c : Config) (a : Addr) (v : Nat) (p : Port) : Port where
  mem := memWrite c p.mem a v
  log := p.log ++ [.write a v]

/-- `for j from lo + count - 1 down to lo` (R17). -/
def forDown (lo : Nat) (body : Nat → Port → Port) : Nat → Port → Port
  | 0, p => p
  | k + 1, p => forDown lo body k (body (lo + k) p)

/-- What a command in case 5 knows when the word moves begin (R115, R116). -/
structure Job where
  ref : Nat
  len : Nat
  /-- The word read for the overflow test (R80 line 5). -/
  top : Nat
  ws : Nat
  bs : Nat
  deriving DecidableEq, Repr

/-- `t = len + ws`. -/
def Job.t (k : Job) : Nat := k.len + k.ws

/-- Line A2: the word at `i` goes to `i + ws`. -/
def moveWord (c : Config) (k : Job) (i : Nat) (p : Port) : Port :=
  let (x, p) := p.read c ⟨k.ref, .word i⟩
  p.write c ⟨k.ref, .word (i + k.ws)⟩ x

/-- Lines A3 and B7: the word at `i` becomes zero. -/
def zeroWord (c : Config) (k : Job) (i : Nat) (p : Port) : Port := p.write c ⟨k.ref, .word i⟩ 0

/-- Lines A7 to A9. -/
def shiftWordInPlace (c : Config) (k : Job) (j : Nat) (p : Port) : Port :=
  let (cur, p) := if j = k.t then (0, p) else p.read c ⟨k.ref, .word j⟩
  let (low, p) := if k.ws < j then p.read c ⟨k.ref, .word (j - 1)⟩ else (0, p)
  p.write c ⟨k.ref, .word j⟩ (trunc c.W (cur <<< k.bs) ||| (low >>> (c.W - k.bs)))

/-- Reference sequence A (R115): word move and zero fill, bit shift, renormalise. -/
def sequenceA (c : Config) (k : Job) (p : Port) : Port :=
  let p := if 0 < k.ws then forDown 0 (zeroWord c k) k.ws (forDown 0 (moveWord c k) k.len p) else p
  let p :=
    if k.bs ≠ 0 then forDown k.ws (shiftWordInPlace c k) (min k.t (c.CAPACITY - 1) + 1 - k.ws) p else p
  let (newLen, p) :=
    if k.bs ≠ 0 ∧ k.t < c.CAPACITY then
      let (x, p) := p.read c ⟨k.ref, .word k.t⟩
      (if x ≠ 0 then k.t + 1 else k.t, p)
    else (k.t, p)
  p.write c ⟨k.ref, .len⟩ newLen

/-- Lines B3 to B6. -/
def shiftWordAcross (c : Config) (k : Job) (j : Nat) (p : Port) : Port :=
  let (cur, p) := p.read c ⟨k.ref, .word (j - k.ws)⟩
  let (low, p) := if k.bs ≠ 0 ∧ 1 ≤ j - k.ws then p.read c ⟨k.ref, .word (j - k.ws - 1)⟩ else (0, p)
  p.write c ⟨k.ref, .word j⟩
    (if k.bs = 0 then cur else trunc c.W (cur <<< k.bs) ||| (low >>> (c.W - k.bs)))

/-- Reference sequence B (R116): one fused descending pass. -/
def sequenceB (c : Config) (k : Job) (p : Port) : Port :=
  let p :=
    if k.bs ≠ 0 ∧ k.t < c.CAPACITY then p.write c ⟨k.ref, .word k.t⟩ (k.top >>> (c.W - k.bs)) else p
  let p := forDown k.ws (shiftWordAcross c k) k.len p
  let p := forDown 0 (zeroWord c k) k.ws p
  p.write c ⟨k.ref, .len⟩ (if k.bs ≠ 0 ∧ k.top >>> (c.W - k.bs) ≠ 0 then k.t + 1 else k.t)

/-- Lines 1 to 8 of R80, with `body` for the word moves and the write of `len`: the status and the storage channel
after the command. -/
def runSequence (body : Config → Job → Port → Port) (c : Config) (ref : Nat) (s : Nat) (p : Port) :
    Status × Port :=
  if ref = 0 then (.nullArgument, p)
  else if s = 0 then (.success, p)
  else
    let (len, p) := p.read c ⟨ref, .len⟩
    if len = 0 then (.success, p)
    else
      let (top, p) := p.read c ⟨ref, .word (len - 1)⟩
      if c.capBits < (len - 1) * c.W + blen top + s then (.overflow, p)
      else (.success, body c ⟨ref, len, top, wordShift c s, bitShift c s⟩ p)

/-- The fields an access list reads. -/
def readsOf (log : List Access) : List Addr :=
  log.filterMap fun | .read a => some a | .write _ _ => none

/-- The fields an access list writes. -/
def writesOf (log : List Access) : List Addr :=
  log.filterMap fun | .read _ => none | .write a _ => some a

end Sys2Proof.Machine
end

