-- ==== Sys2Proof/Machine/Text.lean ====
section
/-! DEFINITION. The textual syntax of R67: commands, statuses and records in DOC0's notation, printed and read. -/

namespace Sys2Proof.Machine

/-- The names of the statuses (R64). -/
def Status.text : Status → String
  | .success => "Success"
  | .nullArgument => "NullArgument"
  | .overflow => "Overflow"

/-- `<ref>`: `null`, or the number. -/
def refText (r : Nat) : String := if r = 0 then "null" else Nat.repr r

/-- `shift_left(<ref>, <shamt>)`; numbers are printed in decimal, one of R67's two spellings (DESIGN CHOICE, log entry
21). -/
def commandText : Instr → String
  | .shl r n => "shift_left(" ++ refText r ++ ", " ++ Nat.repr n ++ ")"

/-- `SHL <ref>, <shamt>`. -/
def mnemonicText : Instr → String
  | .shl r n => "SHL " ++ refText r ++ ", " ++ Nat.repr n

/-- `shift_left(<ref>, <shamt>) -> <Status>`. -/
def exchangeText (i : Instr) (st : Status) : String := commandText i ++ " -> " ++ st.text

/-- A word of a written record. R67 gives only `w0,w1,...` and does not say how a word is spelled: DESIGN CHOICE, log
entry 21. As the spec's own records have it (R80's and R115's worked examples), zero is `0` and any other word a `0x`
literal with capital digits and no leading zeros. -/
def wordText (n : Nat) : String :=
  if n = 0 then "0" else "0x" ++ String.ofList ((Nat.toDigits 16 n).map Char.toUpper)

/-- A record: its words in square brackets, least significant first, and its `len`, in braces (R67); the spelling of a
word and the decimal `len` are the model's choice (DESIGN CHOICE, log entry 21). -/
def recordText (v : Record) : String :=
  String.ofList [Char.ofNat 123] ++ "words:[" ++ ",".intercalate (v.words.map wordText) ++ "], len:" ++ Nat.repr v.len ++
    String.ofList [Char.ofNat 125]

/-- The value of a digit, if it is one in base `base`. -/
def digitValue (base : Nat) (ch : Char) : Option Nat :=
  let d :=
    if '0' ≤ ch ∧ ch ≤ '9' then ch.toNat - '0'.toNat
    else if 'a' ≤ ch ∧ ch ≤ 'f' then ch.toNat - 'a'.toNat + 10
    else if 'A' ≤ ch ∧ ch ≤ 'F' then ch.toNat - 'A'.toNat + 10
    else base
  if d < base then some d else none

/-- Digits, most significant first, after the value `acc` of those already read. -/
def digitsValue (base acc : Nat) : List Char → Option Nat
  | [] => some acc
  | ch :: rest =>
    match digitValue base ch with
    | some d => digitsValue base (acc * base + d) rest
    | none => none

/-- A non-negative decimal or `0x` hexadecimal integer. -/
def readNumber : List Char → Option Nat
  | [] => none
  | '0' :: 'x' :: ch :: rest => digitsValue 16 0 (ch :: rest)
  | cs => digitsValue 10 0 cs

/-- A reference: `null`, a non-zero number, or a name bound to one. -/
def readRef (names : List (String × Nat)) (cs : List Char) : Option Nat :=
  if cs = "null".toList then some 0
  else
    match readNumber cs with
    | some 0 => none
    | some r => some r
    | none =>
      match names.lookup (String.ofList cs) with
      | some 0 => none
      | r => r

/-- What follows `word` in `cs`, if `cs` begins with it. -/
def afterWord : List Char → List Char → Option (List Char)
  | [], cs => some cs
  | _ :: _, [] => none
  | w :: ws, ch :: cs => if w = ch then afterWord ws cs else none

/-- The text before and after the first comma and one space. -/
def splitComma : List Char → Option (List Char × List Char)
  | [] => none
  | ',' :: ' ' :: rest => some ([], rest)
  | ch :: rest =>
    match splitComma rest with
    | some (a, b) => some (ch :: a, b)
    | none => none

/-- `<ref>, <shamt>`, each within its field's width (R67: the shift amount is below `2^SA_BITS`). -/
def readOperands (c : Config) (names : List (String × Nat)) (cs : List Char) : Option Instr :=
  match splitComma cs with
  | none => none
  | some (a, b) =>
    match readRef names a, readNumber b with
    | some r, some n => if WellFormed c (.shl r n) then some (.shl r n) else none
    | _, _ => none

/-- Reads a command in either spelling of R67. -/
def readCommand (c : Config) (names : List (String × Nat)) (t : String) : Option Instr :=
  match afterWord "shift_left(".toList t.toList, afterWord "SHL ".toList t.toList with
  | some rest, _ =>
    if rest.getLast? = some ')' then readOperands c names rest.dropLast else none
  | none, some rest => readOperands c names rest
  | none, none => none

end Sys2Proof.Machine
end

