-- ==== Sys2Proof/Safety.lean ====
section
/-! DEFINITION. What the statements call a safe step, and the invariant of the machine. -/

namespace Sys2Proof.Machine

/-- The outcome is a next state: neither a fault nor a refusal. -/
abbrev Continues (r : Result) : Prop := ∃ t, r = .next t

/-- Between `s` and `t` the engine `active` has responded with `st` and is `IDLE` again (R64, R80 `respond`), and nothing
else has changed but, perhaps, the storage: of that a statement speaks for itself. -/
structure Responded (s t : State) (st : Status) : Prop where
  responses : t.responses = s.responses ++ [⟨s.active, st⟩]
  phases : t.phases = s.phases.set s.active .idle
  cfg : t.cfg = s.cfg
  readData : t.readData = s.readData
  agenda : t.agenda = s.agenda
  active : t.active = s.active
  drawn : t.drawn = s.drawn

/-- Field `a` reads the same in `t` as in `s`. -/
abbrev SameAt (s t : State) (a : Addr) : Prop := memRead t.cfg t.storage a = memRead s.cfg s.storage a

/-- Case 5 of R81: a non-null reference, a shift that is not zero, a value that is not zero, and no overflow. -/
abbrev Shifts (s : State) (ref n : Nat) : Prop :=
  ref ≠ 0 ∧ 0 < n ∧ 0 < lenRead s ref ∧ (record s ref).bitlen s.cfg + n ≤ s.cfg.capBits

/-- Two engines never hold commands on the same record: two commands in flight name distinct references, or one of
them names none (R141). -/
abbrev Phase.Disjoint : Phase → Phase → Prop
  | .idle, _ => True
  | _, .idle => True
  | .busy r _, .busy r' _ => r = 0 ∨ r ≠ r'

/-- A command in flight fits the widths of the phase (R28) and meets the precondition of R80. -/
abbrev Phase.Ok (s : State) : Phase → Prop
  | .idle => True
  | .busy ref shamt => WellFormed s.cfg (.shl ref shamt) = true ∧ Precondition s ref

/-- The invariant every step keeps. -/
structure Inv (s : State) : Prop where
  /-- The parameters meet R5 to R11. -/
  config : s.cfg.Wf
  /-- The storage list is in canonical form. -/
  canonical : s.storage.wf
  /-- Only addresses of the storage are listed (R40). -/
  addresses : ∀ x ∈ s.storage, isAddress s.cfg x.1 = true
  /-- Every field's contents fit its width (R21). -/
  widths : ∀ x ∈ s.storage, IsWord (fieldBits s.cfg x.1.field) x.2
  /-- There are `NENGINES` engines (R28). -/
  engines : s.phases.length = s.cfg.NENGINES
  /-- Every command in flight fits its latch and is within the contract. -/
  inFlight : ∀ p ∈ s.phases, Phase.Ok s p
  /-- No record is named by two commands in flight (R141). -/
  exclusive : s.phases.Pairwise Phase.Disjoint
  /-- `active` is the number of an engine. -/
  activeEngine : s.active < s.cfg.NENGINES

/-- An event within the host's contract (R152, R153): engines and addresses that exist, command words, no access to a
record in flight, and commands that meet the precondition. -/
abbrev Event.Conforms (s : State) : Event → Prop
  | .present e cmd =>
    e < s.cfg.NENGINES ∧
      match decode s.cfg cmd with
      | .ok (.shl ref _) => owned s ref = false ∧ Precondition s ref
      | .error _ => False
  | .complete _ => True
  | .read a => isAddress s.cfg a = true ∧ owned s a.ref = false
  | .write a _ => isAddress s.cfg a = true ∧ owned s a.ref = false
  | .take => True
  | .reset => True

end Sys2Proof.Machine
end

