-- ==== Sys2Proof/Certificates/Slice0/Obligations.lean ====
section
/-! DEFINITION. The statements for the provers. Each docstring names the rules of spec/ it rests on. The log entries
named are the model's own choices (notes/assumptions). -/

open Sys2Proof Sys2Proof.Machine

/-! ### The command word and the response word -/

/-- Decoding the encoding of any well-formed instruction gives it back, in every configuration (R60, R66). -/
def Obligations.DecodeOfEncodeIsTheInstruction : Prop :=
  ∀ (c : Config) (i : Instr), c.Wf → WellFormed c i = true → decode c (encode c i) = .ok i

/-- The decoder is total on command words (R65): every one is an `SHL` whose encoding it is; a wider number is none. -/
def Obligations.EveryCommandWordDecodesToOneShl : Prop :=
  ∀ (c : Config) (cmd : Nat), c.Wf →
    (cmd < 2 ^ (c.REF_BITS + c.SA_BITS) →
      ∃ ref shamt, decode c cmd = .ok (.shl ref shamt) ∧ WellFormed c (.shl ref shamt) = true ∧
        encode c (.shl ref shamt) = cmd) ∧
    (2 ^ (c.REF_BITS + c.SA_BITS) ≤ cmd → decode c cmd = .error .notACommandWord)

/-- R60: one length and one format, `CMD = {REF, SHAMT} = (REF << SA_BITS) | SHAMT`, `REF` at
`[REF_BITS + SA_BITS - 1 : SA_BITS]`, `SHAMT` at `[SA_BITS - 1 : 0]`; 96 bits, `CMD[95:64]` and `CMD[63:0]`, in the
reference configuration. -/
def Obligations.CommandWordHoldsRefAboveShamt : Prop :=
  (∀ (c : Config) (ref shamt : Nat), c.Wf → ref < 2 ^ c.REF_BITS → shamt < 2 ^ c.SA_BITS →
    encode c (.shl ref shamt) = (ref <<< c.SA_BITS) ||| shamt ∧
    encode c (.shl ref shamt) < 2 ^ (c.REF_BITS + c.SA_BITS) ∧
    encode c (.shl ref shamt) / 2 ^ c.SA_BITS = ref ∧
    encode c (.shl ref shamt) % 2 ^ c.SA_BITS = shamt) ∧
  Config.reference.cmdBits = 96 ∧ Config.reference.SA_BITS = 64 ∧ Config.reference.REF_BITS = 32

/-- R69: the worked encodings, as text, as instruction and as command word. -/
def Obligations.WorkedEncodingsDecode : Prop :=
  ∀ row ∈ [("shift_left(v, 4)", 1, 0x4, 0x000000010000000000000004),
      ("shift_left(v, 1)", 1, 0x1, 0x000000010000000000000001),
      ("shift_left(v, 1000)", 1, 0x3E8, 0x0000000100000000000003E8),
      ("shift_left(null, 5)", 0, 0x5, 0x000000000000000000000005),
      ("shift_left(v, 0)", 1, 0x0, 0x000000010000000000000000)],
    readCommand Config.reference [("v", 1)] row.1 = some (.shl row.2.1 row.2.2.1) ∧
    encode Config.reference (.shl row.2.1 row.2.2.1) = row.2.2.2 ∧
    decodeTableWord 96 row.2.2.2 = some (.shl row.2.1 row.2.2.1)

/-- R64, R65: the codes of the three statuses; each is read back; code 3 is no status. -/
def Obligations.StatusCodesAreZeroOneTwo : Prop :=
  Status.code .success = 0#2 ∧ Status.code .nullArgument = 1#2 ∧ Status.code .overflow = 2#2 ∧
  (∀ st, Status.ofCode (Status.code st) = some st ∧ Status.code st ≠ 3#2) ∧ Status.ofCode 3#2 = none

/-! ### Bit lengths, the split of the shift amount, the overflow test -/

/-- R15: `blen(0) = 0`, else the unique `n >= 1` with `2^(n-1) <= x < 2^n`. -/
def Obligations.BitLengthIsTheUniqueBound : Prop :=
  blen 0 = 0 ∧ blen 0x8000000000000000 = 64 ∧
  ∀ x, x ≠ 0 → (1 ≤ blen x ∧ 2 ^ (blen x - 1) ≤ x ∧ x < 2 ^ blen x) ∧
    ∀ n, 1 ≤ n → 2 ^ (n - 1) ≤ x → x < 2 ^ n → n = blen x

/-- R16: the magnitude of a valid value, its `bitlen`, and that `bitlen(v) = blen(magnitude(v))`. -/
def Obligations.BitlenIsTheBitLengthOfTheMagnitude : Prop :=
  ∀ (c : Config) (v : Record), c.Wf → v.Shaped c → v.Valid c →
    v.magnitude c = ∑ i ∈ Finset.range v.len, v.word i * 2 ^ (c.W * i) ∧
    (0 < v.len → v.bitlen c = (v.len - 1) * c.W + blen (v.word (v.len - 1))) ∧
    (v.len = 0 → v.bitlen c = 0) ∧
    v.bitlen c = blen (v.magnitude c)

/-- R100: `ws = s div W`, `bs = s mod W`, `s = ws * W + bs`, `0 <= bs <= W - 1`; after a passed overflow test
`ws < CAPACITY`; for `W = 2^p`, a shift and a mask; `p = 6` in the reference configuration. -/
def Obligations.ShiftAmountSplitsIntoWordsAndBits : Prop :=
  ∀ (c : Config) (s : Nat), c.Wf →
    wordShift c s = s / c.W ∧ bitShift c s = s % c.W ∧
    s = wordShift c s * c.W + bitShift c s ∧ bitShift c s ≤ c.W - 1 ∧
    (s < 2 ^ c.SA_BITS → wordShift c s ≤ (2 ^ c.SA_BITS - 1) / c.W) ∧
    (∀ v : Record, v.Shaped c → v.Valid c → 0 < v.len → overflows c v s = false → wordShift c s < c.CAPACITY) ∧
    (∀ p, c.W = 2 ^ p → wordShift c s = s >>> p ∧ bitShift c s = s &&& (c.W - 1)) ∧
    Config.reference.W = 2 ^ 6

/-- R101: the operand's bit length, its bounds, and that it needs `len` and the top significant word only; a zero value
has `L = 0` and never overflows. -/
def Obligations.OperandBitLengthIsBounded : Prop :=
  ∀ (c : Config) (v : Record), c.Wf → v.Shaped c → v.Valid c →
    (0 < v.len →
      v.bitlen c = (v.len - 1) * c.W + blen (v.word (v.len - 1)) ∧
      1 ≤ blen (v.word (v.len - 1)) ∧ blen (v.word (v.len - 1)) ≤ c.W ∧
      (v.len - 1) * c.W + 1 ≤ v.bitlen c ∧ v.bitlen c ≤ v.len * c.W ∧ v.len * c.W ≤ c.CAPACITY * c.W ∧
      ∀ u : Record, u.len = v.len → u.word (v.len - 1) = v.word (v.len - 1) → u.bitlen c = v.bitlen c) ∧
    (v.len = 0 → v.bitlen c = 0 ∧ ∀ s, overflows c v s = false)

/-- R102: the predicate on mathematical integers, the form that cannot wrap, the headroom, the width the sum needs, and
the corner case of the reference configuration. -/
def Obligations.OverflowTestCannotWrap : Prop :=
  (∀ (c : Config) (v : Record) (s : Nat), c.Wf → v.Shaped c → v.Valid c →
    (overflows c v s = true ↔ 0 < v.len ∧ c.CAPACITY * c.W < v.bitlen c + s) ∧
    overflows c v s = overflowsByHeadroom c v s ∧
    (0 < v.len → (overflows c v s = false ↔ s ≤ c.CAPACITY * c.W - v.bitlen c)) ∧
    (s < 2 ^ c.SA_BITS → v.bitlen c + s < 2 ^ (max c.SA_BITS (blen (c.CAPACITY * c.W)) + 1))) ∧
  ∀ v : Record, v.bitlen Config.reference = 1 → overflows Config.reference v (2 ^ 64 - 1) = true

/-- R103 (a), (b), (c), (e): what a passed overflow test guarantees. -/
def Obligations.PassedOverflowTestKeepsIndicesInRange : Prop :=
  ∀ (c : Config) (v : Record) (s : Nat), c.Wf → v.Shaped c → v.Valid c → 0 < v.len → 0 < s →
    v.bitlen c + s ≤ c.CAPACITY * c.W →
    topIndex c v s ≤ c.CAPACITY ∧ wordShift c s ≤ c.CAPACITY - v.len ∧ wordShift c s < c.CAPACITY ∧
    s < c.CAPACITY * c.W ∧
    (carryOut c v (bitShift c s) ≠ 0 ↔ c.W < blen (v.word (v.len - 1)) + bitShift c s) ∧
    (topIndex c v s = c.CAPACITY → carryOut c v (bitShift c s) = 0) ∧
    newLen c v s ≤ c.CAPACITY

/-- R112: the new length is the number of words that `L + s` bits need, is never 0, and fits the `len` field. -/
def Obligations.NewLengthIsTheWordsNeeded : Prop :=
  ∀ (c : Config) (v : Record) (s : Nat), c.Wf → v.Shaped c → v.Valid c → 0 < v.len → 0 < s →
    v.bitlen c + s ≤ c.CAPACITY * c.W →
    newLen c v s = (v.bitlen c + s - 1) / c.W + 1 ∧ newLen c v s ≠ 0 ∧ newLen c v s < 2 ^ c.LEN_BITS

/-- R113: a downward scan from the highest index the engine wrote finds the new length, whatever the insignificant
words store. -/
def Obligations.ScanFromTheHighestWrittenWordFindsTheNewLength : Prop :=
  ∀ (c : Config) (v : Record) (s : Nat), c.Wf → v.Shaped c → v.Valid c → 0 < v.len → 0 < s →
    v.bitlen c + s ≤ c.CAPACITY * c.W →
    scanDown (shifted c v s) (writtenWords c v s) = newLen c v s

/-! ### The pure function -/

/-- R106, R91 (v): a shift by a whole number of words moves words only. -/
def Obligations.WholeWordShiftMovesWordsOnly : Prop :=
  ∀ (c : Config) (v : Record) (k : Nat), c.Wf → v.Shaped c → v.Valid c → 0 < v.len → 0 < k →
    v.bitlen c + k * c.W ≤ c.CAPACITY * c.W →
    (shl c v (k * c.W)).1 = .success ∧ (shl c v (k * c.W)).2.len = v.len + k ∧
    ∀ j < c.CAPACITY, (shl c v (k * c.W)).2.word j =
      if j < k then 0 else if j < v.len + k then v.word (j - k) else v.word j

/-- R25: what the insignificant words store influences neither the status, nor the new length, nor a significant word. -/
def Obligations.InsignificantWordsHaveNoInfluence : Prop :=
  ∀ (c : Config) (v u : Record) (s : Nat), c.Wf → v.Shaped c → u.Shaped c → v.Valid c → v.SameValue u →
    (shl c v s).1 = (shl c u s).1 ∧ (shl c v s).2.SameValue (shl c u s).2

/-- R91 (i), (iii), (iv): when a shift succeeds, that overflow is monotone in the amount, and the bit length after a
successful shift. -/
def Obligations.ShiftSucceedsExactlyWhenTheMagnitudeFits : Prop :=
  ∀ (c : Config) (v : Record) (a b : Nat), c.Wf → v.Shaped c → v.Valid c →
    ((shl c v a).1 = .success ↔ v.magnitude c = 0 ∨ v.magnitude c * 2 ^ a < 2 ^ c.capBits) ∧
    ((shl c v a).1 = .overflow → a ≤ b → (shl c v b).1 = .overflow) ∧
    (0 < v.len → (shl c v a).1 = .success → (shl c v a).2.bitlen c = v.bitlen c + a)

/-- R91 (ii): a successful shift by `a + b` is a successful shift by `a` and then one by `b`, equal as a value. -/
def Obligations.TwoShiftsComposeToOne : Prop :=
  ∀ (c : Config) (v : Record) (a b : Nat), c.Wf → v.Shaped c → v.Valid c → (shl c v (a + b)).1 = .success →
    (shl c v a).1 = .success ∧ (shl c (shl c v a).2 b).1 = .success ∧
    (shl c (shl c v a).2 b).2.SameValue (shl c v (a + b)).2

/-! ### SHL -/

/-- SHL goes on exactly under the precondition of R80; outside it, it is refused for the reason R92 gives (R44, U3;
U4). -/
def Obligations.ShlGoesOnExactlyWithinTheContract : Prop :=
  ∀ (s : State) (ref n : Nat),
    ((∃ t, exec (.shl ref n) s = .next t) ↔
      (ref ≠ 0 → isPopulated s.cfg ref = true ∧ (record s ref).Valid s.cfg)) ∧
    (ref ≠ 0 → isPopulated s.cfg ref = false → exec (.shl ref n) s = .refused .unpopulatedReference) ∧
    (isPopulated s.cfg ref = true → ¬ (record s ref).Valid s.cfg → exec (.shl ref n) s = .refused .invalidRecord)

/-- R82: a null reference gives `NullArgument` for every shift amount; no field of any record is read or written. -/
def Obligations.NullReferenceGivesNullArgument : Prop :=
  ∀ (s : State) (n : Nat),
    (∃ t, exec (.shl 0 n) s = .next t ∧ Responded s t .nullArgument ∧ t.storage = s.storage) ∧
    ∀ body (c : Config) (p : Port), runSequence body c 0 n p = (.nullArgument, p)

/-- R83: a zero shift of a valid value gives `Success`; no field is written and none needs to be read. -/
def Obligations.ZeroShiftLeavesTheRecord : Prop :=
  ∀ (s : State) (ref : Nat), ref ≠ 0 → isPopulated s.cfg ref = true → (record s ref).Valid s.cfg →
    (∃ t, exec (.shl ref 0) s = .next t ∧ Responded s t .success ∧ t.storage = s.storage) ∧
    ∀ body (c : Config) (p : Port), runSequence body c ref 0 p = (.success, p)

/-- R84: a zero value gives `Success` for every shift amount, also one of `CAPBITS` or more; only `len` is read and
nothing is written. -/
def Obligations.ZeroValueAlwaysSucceeds : Prop :=
  ∀ (s : State) (ref n : Nat), ref ≠ 0 → isPopulated s.cfg ref = true → 0 < n → lenRead s ref = 0 →
    (∃ t, exec (.shl ref n) s = .next t ∧ Responded s t .success ∧ t.storage = s.storage) ∧
    ∀ body, runSequence body s.cfg ref n ⟨s.storage, []⟩ = (.success, ⟨s.storage, [.read ⟨ref, .len⟩]⟩)

/-- R85: `Overflow` without mutation exactly when `bitlen(v) + s > CAPBITS`, so by one bit at the boundary; equivalently
when `magnitude(v) * 2^s >= 2^CAPBITS`. -/
def Obligations.OverflowIsRejectedExactlyAtTheBoundary : Prop :=
  ∀ (s : State) (ref n : Nat), s.cfg.Wf → ref ≠ 0 → isPopulated s.cfg ref = true → (record s ref).Valid s.cfg →
    0 < n → 0 < lenRead s ref →
    (s.cfg.CAPACITY * s.cfg.W < (record s ref).bitlen s.cfg + n →
      ∃ t, exec (.shl ref n) s = .next t ∧ Responded s t .overflow ∧ t.storage = s.storage) ∧
    ((record s ref).bitlen s.cfg + n ≤ s.cfg.CAPACITY * s.cfg.W →
      ∃ t, exec (.shl ref n) s = .next t ∧ Responded s t .success) ∧
    (s.cfg.CAPACITY * s.cfg.W < (record s ref).bitlen s.cfg + n ↔
      2 ^ (s.cfg.CAPACITY * s.cfg.W) ≤ (record s ref).magnitude s.cfg * 2 ^ n)

/-- R110, R111, R112: the result words and the new length of a successful shift, in the spec's own formulas, and its
frame: every field outside the write set of R46 reads as before. -/
def Obligations.ShiftWritesTheResultWords : Prop :=
  ∀ (s : State) (ref n : Nat), s.cfg.Wf → isPopulated s.cfg ref = true → (record s ref).Valid s.cfg →
    Shifts s ref n →
    ∃ t, exec (.shl ref n) s = .next t ∧ Responded s t .success ∧
      (∀ j < s.cfg.CAPACITY, wordRead t ref j =
        if j < n / s.cfg.W then 0
        else if j = n / s.cfg.W then (wordRead s ref 0 <<< (n % s.cfg.W)) % 2 ^ s.cfg.W
        else if j < lenRead s ref + n / s.cfg.W then
          if n % s.cfg.W = 0 then wordRead s ref (j - n / s.cfg.W)
          else (wordRead s ref (j - n / s.cfg.W) <<< (n % s.cfg.W)) % 2 ^ s.cfg.W |||
            (wordRead s ref (j - n / s.cfg.W - 1) >>> (s.cfg.W - n % s.cfg.W))
        else if j = lenRead s ref + n / s.cfg.W ∧ n % s.cfg.W ≠ 0 then
          wordRead s ref (lenRead s ref - 1) >>> (s.cfg.W - n % s.cfg.W)
        else wordRead s ref j) ∧
      lenRead t ref = lenRead s ref + n / s.cfg.W +
        (if n % s.cfg.W ≠ 0 ∧ wordRead s ref (lenRead s ref - 1) >>> (s.cfg.W - n % s.cfg.W) ≠ 0 then 1 else 0) ∧
      ∀ a : Addr,
        ¬ (a.ref = ref ∧ (a.field = .len ∨ ∃ j < writtenWords s.cfg (record s ref) n, a.field = .word j)) →
        SameAt s t a

/-- R86: the magnitude law. -/
def Obligations.ShiftMultipliesTheMagnitude : Prop :=
  ∀ (s : State) (ref n : Nat), s.cfg.Wf → isPopulated s.cfg ref = true → (record s ref).Valid s.cfg →
    Shifts s ref n →
    ∃ t, exec (.shl ref n) s = .next t ∧ Responded s t .success ∧
      (record t ref).magnitude t.cfg = (record s ref).magnitude s.cfg * 2 ^ n ∧
      (record s ref).magnitude s.cfg * 2 ^ n < 2 ^ s.cfg.capBits

/-- R87: after every response the record named is a valid value; outside case 5 it is untouched; in case 5 the new
length is the number of words the new magnitude needs, never 0. -/
def Obligations.RecordIsValidAfterEveryResponse : Prop :=
  ∀ (s t : State) (ref n : Nat), s.cfg.Wf → ref ≠ 0 → exec (.shl ref n) s = .next t →
    (record t ref).Valid t.cfg ∧
    (¬ Shifts s ref n → record t ref = record s ref) ∧
    (Shifts s ref n →
      lenRead t ref = ((record s ref).bitlen s.cfg + n - 1) / s.cfg.W + 1 ∧ lenRead t ref ≠ 0)

/-- R90: within the contract, SHL is the pure function `shl` on the record it names, and touches no other record. -/
def Obligations.ShlIsThePureFunctionOnItsRecord : Prop :=
  ∀ (s : State) (ref n : Nat), s.cfg.Wf → ref ≠ 0 → isPopulated s.cfg ref = true → (record s ref).Valid s.cfg →
    ∃ t, exec (.shl ref n) s = .next t ∧ Responded s t (shl s.cfg (record s ref) n).1 ∧
      record t ref = (shl s.cfg (record s ref) n).2 ∧ ∀ a : Addr, a.ref ≠ ref → SameAt s t a

/-- The frame of SHL in all five cases (R27, R46, R81): only the engine that executes it changes phase, one response is
added, and outside the write set of a successful shift every field reads as before. -/
def Obligations.ShlFrame : Prop :=
  ∀ (s t : State) (ref n : Nat), exec (.shl ref n) s = .next t →
    (∃ st, Responded s t st) ∧
    (∀ e, e ≠ s.active → phaseOf t e = phaseOf s e) ∧
    ∀ a : Addr,
      ¬ (Shifts s ref n ∧ a.ref = ref ∧
          (a.field = .len ∨ ∃ j < writtenWords s.cfg (record s ref) n, a.field = .word j)) →
      SameAt s t a

/-- R136: an error changes no state except the phase, emits its status, and leaves the storage as it was. -/
def Obligations.ErrorsChangeOnlyThePhase : Prop :=
  ∀ (s t : State) (ref n : Nat) (st : Status), exec (.shl ref n) s = .next t →
    t.responses = s.responses ++ [⟨s.active, st⟩] → st ≠ .success →
    Responded s t st ∧ t.storage = s.storage ∧ phaseOf t s.active = .idle

/-- R89, R137: the same command on the same unchanged record overflows again, and never mutates the operand. -/
def Obligations.OverflowRepeats : Prop :=
  ∀ (s t : State) (ref n : Nat), exec (.shl ref n) s = .next t →
    t.responses = s.responses ++ [⟨s.active, .overflow⟩] →
    ∃ t', exec (.shl ref n) t = .next t' ∧ Responded t t' .overflow ∧ t'.storage = s.storage

/-- R89: the status and the new record depend on the record's contents and the command alone. -/
def Obligations.OutcomeDependsOnTheRecordAlone : Prop :=
  ∀ (s u t : State) (ref n : Nat), s.cfg.Wf → s.cfg = u.cfg → (ref ≠ 0 → record s ref = record u ref) →
    exec (.shl ref n) s = .next t →
    ∃ t' st, exec (.shl ref n) u = .next t' ∧ Responded s t st ∧ Responded u t' st ∧
      (ref ≠ 0 → record t' ref = record t ref)

/-! ### The reference access sequences -/

/-- R115: reference sequence A answers the status of SHL and leaves the storage SHL leaves. -/
def Obligations.SequenceALeavesTheSameRecord : Prop :=
  ∀ (s t : State) (ref n : Nat), s.cfg.Wf → exec (.shl ref n) s = .next t →
    Responded s t (runSequence sequenceA s.cfg ref n ⟨s.storage, []⟩).1 ∧
    ∀ a, memRead s.cfg (runSequence sequenceA s.cfg ref n ⟨s.storage, []⟩).2.mem a = memRead t.cfg t.storage a

/-- R116: reference sequence B answers the status of SHL and leaves the storage SHL leaves. -/
def Obligations.SequenceBLeavesTheSameRecord : Prop :=
  ∀ (s t : State) (ref n : Nat), s.cfg.Wf → exec (.shl ref n) s = .next t →
    Responded s t (runSequence sequenceB s.cfg ref n ⟨s.storage, []⟩).1 ∧
    ∀ a, memRead s.cfg (runSequence sequenceB s.cfg ref n ⟨s.storage, []⟩).2.mem a = memRead t.cfg t.storage a

/-- R46: the fields sequence B reads and writes, by outcome. -/
def Obligations.SequenceBTouchesTheAccessSets : Prop :=
  ∀ (c : Config) (m : Memory) (ref n : Nat), c.Wf → ref ≠ 0 → 0 < n → (recordOf c m ref).Valid c →
    let log := (runSequence sequenceB c ref n ⟨m, []⟩).2.log
    let v := recordOf c m ref
    (v.len = 0 → log = [.read ⟨ref, .len⟩]) ∧
    (0 < v.len → c.capBits < v.bitlen c + n →
      log = [.read ⟨ref, .len⟩, .read ⟨ref, .word (v.len - 1)⟩]) ∧
    (0 < v.len → v.bitlen c + n ≤ c.capBits →
      (∀ a, a ∈ readsOf log ↔ a = ⟨ref, .len⟩ ∨ ∃ i < v.len, a = ⟨ref, .word i⟩) ∧
      (∀ a, a ∈ writesOf log ↔ a = ⟨ref, .len⟩ ∨
        ∃ j, (j < topIndex c v n ∨ (j = topIndex c v n ∧ bitShift c n ≠ 0 ∧ j < c.CAPACITY)) ∧ a = ⟨ref, .word j⟩))

/-- R47 (b), (c), (d), R114: in sequence B the two reads that decide overflow come first, no field is read after it was
written, and the one write of `len` is the last access. -/
def Obligations.SequenceBKeepsTheOrderOfAccesses : Prop :=
  ∀ (c : Config) (m : Memory) (ref n : Nat), c.Wf → (recordOf c m ref).Valid c → ref ≠ 0 → 0 < n →
    0 < (recordOf c m ref).len → (recordOf c m ref).bitlen c + n ≤ c.capBits →
    let log := (runSequence sequenceB c ref n ⟨m, []⟩).2.log
    log.take 2 = [.read ⟨ref, .len⟩, .read ⟨ref, .word ((recordOf c m ref).len - 1)⟩] ∧
    log.Pairwise (fun x y => ∀ a w, x = .write a w → y ≠ .read a) ∧
    ∃ moves w, log = moves ++ [.write ⟨ref, .len⟩ w] ∧ ⟨ref, .len⟩ ∉ writesOf moves

/-- R118, R156: the bounds on the number of accesses of one command. -/
def Obligations.AccessCountsAreBoundedByCapacity : Prop :=
  ∀ (c : Config) (m : Memory) (ref n : Nat), c.Wf → (ref ≠ 0 → (recordOf c m ref).Valid c) →
    let logA := (runSequence sequenceA c ref n ⟨m, []⟩).2.log
    let logB := (runSequence sequenceB c ref n ⟨m, []⟩).2.log
    (readsOf logA).length ≤ 3 * c.CAPACITY + 4 ∧ (writesOf logA).length ≤ 2 * c.CAPACITY + 2 ∧
    (readsOf logB).length ≤ 2 * c.CAPACITY + 1 ∧ (writesOf logB).length ≤ c.CAPACITY + 2

/-! ### Steps -/

/-- R66: an idle engine that is presented a command word latches its two fields, and nothing else happens. (The contract
conditions are those the model refuses or faults outside of, R92 and R51; that it does so at ACCEPT is its choice: log
entries 9 and 10.) -/
def Obligations.AcceptLatchesTheFields : Prop :=
  ∀ (s : State) (e cmd : Nat) (rest : List Event), s.cfg.Wf → s.agenda = .present e cmd :: rest →
    e < s.cfg.NENGINES → phaseOf s e = .idle → cmd < 2 ^ s.cfg.cmdBits →
    owned s (cmd / 2 ^ s.cfg.SA_BITS) = false → Precondition s (cmd / 2 ^ s.cfg.SA_BITS) →
    step s = .next { s with
      agenda := rest
      phases := s.phases.set e (.busy (cmd / 2 ^ s.cfg.SA_BITS) (cmd % 2 ^ s.cfg.SA_BITS)) }

/-- The step that completes a busy engine is `exec` of the instruction in its phase (R28), with the event taken off the
agenda and the engine's number in `active`. -/
def Obligations.CompleteStepRunsTheLatchedInstruction : Prop :=
  ∀ (s : State) (e ref n : Nat) (rest : List Event), s.agenda = .complete e :: rest →
    phaseOf s e = .busy ref n → step s = exec (.shl ref n) { s with agenda := rest, active := e }

/-- A step runs the decoded instruction (log entries 6 and 9 to 11 for what the model adds): a command word that decodes to `i`, presented to an idle engine and completed
next, is `exec i`, with the phase the engine has latched (R28, R66). -/
def Obligations.PresentedCommandIsDecodedAndRun : Prop :=
  ∀ (s : State) (e cmd ref n : Nat) (rest : List Event),
    s.agenda = .present e cmd :: .complete e :: rest → e < s.cfg.NENGINES → s.phases.length = s.cfg.NENGINES →
    phaseOf s e = .idle → decode s.cfg cmd = .ok (.shl ref n) → owned s ref = false → Precondition s ref →
    ∃ s1, step s = .next s1 ∧
      step s1 = exec (.shl ref n)
        { s with agenda := rest, active := e, phases := s.phases.set e (.busy ref n) }

/-- The host's window: a command word placed with `withFetchWord` is run by the very next step (log entry 17). -/
def Obligations.PlacedCommandRunsNext : Prop :=
  ∀ (s : State) (nbits w ref n : Nat), 0 < s.phases.length →
    decode s.cfg (w % 2 ^ nbits) = .ok (.shl ref n) →
    step (s.withFetchWord nbits w) =
      exec (.shl ref n) { s with active := 0, phases := s.phases.set 0 (.busy ref n) }

/-- R20, R156: with nothing on the agenda the lowest-numbered engine with a command in flight completes it (its number:
log entry 7), and with no command in flight nothing happens. -/
def Obligations.WithoutEventsOnlyCommandsInFlightMove : Prop :=
  ∀ s : State, s.agenda = [] →
    ((∀ p ∈ s.phases, p = .idle) → step s = .next s) ∧
    ∀ e ref n, phaseOf s e = .busy ref n → (∀ e' < e, phaseOf s e' = .idle) →
      step s = exec (.shl ref n) { s with active := e }

/-- R28: a busy engine accepts no command; the presentation waits while that engine completes (log entry 8). -/
def Obligations.BusyEngineAcceptsNothing : Prop :=
  ∀ (s : State) (e cmd ref n ref' n' : Nat) (rest : List Event), s.agenda = .present e cmd :: rest →
    e < s.cfg.NENGINES → phaseOf s e = .busy ref n → decode s.cfg cmd = .ok (.shl ref' n') → owned s ref' = false →
    step s = exec (.shl ref n) { s with active := e }

/-- R51, R141: while a command naming `r` is in flight, a host access to `S[r]` and the presentation of another command
with reference `r`, to any engine, are faults, and a fault is never cleared. (R51 speaks of the ACCEPT, R153 of the
presentation, where the model faults: log entry 9.) -/
def Obligations.TouchingAnOwnedRecordFaults : Prop :=
  ∀ (s : State) (r n : Nat) (rest : List Event), r ≠ 0 → .busy r n ∈ s.phases →
    (∀ f, isAddress s.cfg ⟨r, f⟩ = true → s.agenda = .read ⟨r, f⟩ :: rest → step s = .fault .concurrentAccess) ∧
    (∀ f v, isAddress s.cfg ⟨r, f⟩ = true → s.agenda = .write ⟨r, f⟩ v :: rest →
      step s = .fault .concurrentAccess) ∧
    (∀ e cmd n', e < s.cfg.NENGINES → decode s.cfg cmd = .ok (.shl r n') → s.agenda = .present e cmd :: rest →
      step s = .fault .concurrentCommand) ∧
    ∀ why, step s = .fault why → ∀ k, Host.Core.run Sys2Proof.core (k + 1) s = .fault why

/-- R43, R48: a host's read returns the value of its latest earlier write, cut to the field, and nothing else changes
but that field. -/
def Obligations.HostReadsBackWhatItWrote : Prop :=
  ∀ (s : State) (a : Addr) (v : Nat) (rest : List Event), s.agenda = .write a v :: .read a :: rest →
    isAddress s.cfg a = true → owned s a.ref = false →
    ∃ t, Host.Core.run Sys2Proof.core 2 s = .next t ∧
      t.readData = s.readData ++ [(a, v % 2 ^ fieldBits s.cfg a.field)] ∧
      (∀ b, b ≠ a → SameAt s t b) ∧
      t = { s with agenda := rest, readData := t.readData, storage := t.storage }

/-- R36, R150: reset puts every engine in `IDLE`, drops the commands in flight without a response, leaves every record
no command in flight names as it was, and makes every field of a named one a free value (log entries 5 and 12). -/
def Obligations.ResetAbandonsCommandsInFlight : Prop :=
  ∀ (s : State) (rest : List Event), s.agenda = .reset :: rest →
    ∃ t, step s = .next t ∧ t.phases = s.phases.map (fun _ => .idle) ∧ t.responses = [] ∧ t.cfg = s.cfg ∧
      t.agenda = rest ∧ t.readData = s.readData ∧ t.active = s.active ∧
      (∀ a : Addr, (∀ n, .busy a.ref n ∉ s.phases) → SameAt s t a) ∧
      (∀ r n f, .busy r n ∈ s.phases → isAddress s.cfg ⟨r, f⟩ = true →
        ∃ k, s.drawn ≤ k ∧ k < t.drawn ∧
          memRead t.cfg t.storage ⟨r, f⟩ = trunc (fieldBits s.cfg f) (Config.freeValue k)) ∧
      ((∀ p ∈ s.phases, p = .idle) → t.storage = s.storage ∧ t.drawn = s.drawn)

/-- R12, R35: the reset state has the reference parameters, every engine `IDLE`, no response pending, and a storage that
nothing has written: every field reads as its power-up contents (log entry 4). -/
def Obligations.ResetStateIsIdleAndUnwritten : Prop :=
  State.reset.cfg = ⟨64, 4, 3, 32, 64, 1, .every⟩ ∧ State.reset.cfg.capBits = 256 ∧
  (∀ p ∈ State.reset.phases, p = .idle) ∧ State.reset.phases.length = State.reset.cfg.NENGINES ∧
  State.reset.responses = [] ∧
  (∀ r, isPopulated State.reset.cfg r = true ↔ 1 ≤ r ∧ r ≤ 2 ^ 32 - 1) ∧
  ∀ a : Addr, memRead State.reset.cfg State.reset.storage a =
    trunc (fieldBits State.reset.cfg a.field) (Config.powerUp a.ref a.field.rank)

/-! ### Whole-machine rules -/

/-- The invariant holds after reset. -/
def Obligations.ResetMeetsTheInvariant : Prop := Inv State.reset

/-- Every step keeps the invariant: the storage list canonical and within the address space, widths, the number of
engines, the contract of the commands in flight, and exclusive ownership (R21, R28, R40, R80, R141; log entry 3). -/
def Obligations.EveryStepKeepsTheInvariant : Prop :=
  ∀ s t : State, Inv s → step s = .next t → Inv t

/-- From a state that meets the invariant, a step within the host's contract goes on: it neither faults nor is refused
(R152, R153). -/
def Obligations.StepsWithinTheContractGoOn : Prop :=
  ∀ s : State, Inv s → (∀ ev rest, s.agenda = ev :: rest → ev.Conforms s) → ∃ t, step s = .next t

/-- R52: the COMPLETE steps of two engines commute: the storage, the phases and each engine's responses are the same in
either order. -/
def Obligations.CompletesOfTwoEnginesCommute : Prop :=
  ∀ (s : State) (e1 e2 : Nat) (rest : List Event), Inv s → e1 ≠ e2 →
    phaseOf s e1 ≠ .idle → phaseOf s e2 ≠ .idle →
    ∃ t u, Host.Core.run Sys2Proof.core 2 { s with agenda := .complete e1 :: .complete e2 :: rest } = .next t ∧
      Host.Core.run Sys2Proof.core 2 { s with agenda := .complete e2 :: .complete e1 :: rest } = .next u ∧
      (∀ a, SameAt t u a) ∧ t.phases = u.phases ∧
      ∀ e, t.responses.filter (·.engine = e) = u.responses.filter (·.engine = e)

/-- R156: every accepted command completes. With no event to come, as many steps as there are engines leave none in
flight, and each command in flight has given one response. R156 leaves the delay open: that a step with no event is the
COMPLETE of a busy engine, and so the bound of `NENGINES` steps, is the model's choice (DESIGN CHOICE, log entry 7). -/
def Obligations.CommandsInFlightAllComplete : Prop :=
  ∀ s : State, Inv s → s.agenda = [] →
    ∃ t, Host.Core.run Sys2Proof.core s.cfg.NENGINES s = .next t ∧ (∀ p ∈ t.phases, p = .idle) ∧
      t.responses.length = s.responses.length + (s.phases.filter (· ≠ .idle)).length

/-- R27, R34: no step changes the parameters or the number of engines. -/
def Obligations.ParametersNeverChange : Prop :=
  ∀ s t : State, step s = .next t → t.cfg = s.cfg ∧ t.phases.length = s.phases.length

/-- R31, R89: pending responses influence nothing: a step does the same whatever responses are pending. -/
def Obligations.PendingResponsesInfluenceNothing : Prop :=
  ∀ (s t : State) (rs : List Response), step s = .next t →
    ∃ t', step { s with responses := rs } = .next t' ∧ { t' with responses := t.responses } = t

/-- R64: one response for each command, at COMPLETE. A response is emitted only when an engine with a command in flight
goes to `IDLE`, one for that command, and no other step but the host's taking one and reset changes the response
channel (log entry 12); conversely, an engine goes from `BUSY` to `IDLE` only with its response, or by reset. -/
def Obligations.OneResponsePerCompletedCommand : Prop :=
  ∀ s t : State, step s = .next t →
    (t.responses = s.responses ∨
      (t.responses = s.responses.tail ∧ ∃ rest, s.agenda = .take :: rest) ∨
      (t.responses = [] ∧ ∃ rest, s.agenda = .reset :: rest) ∨
      ∃ e ref n st, phaseOf s e = .busy ref n ∧ phaseOf t e = .idle ∧
        t.responses = s.responses ++ [⟨e, st⟩]) ∧
    ∀ e ref n, phaseOf s e = .busy ref n → phaseOf t e = .idle →
      (t.responses = [] ∧ ∃ rest, s.agenda = .reset :: rest) ∨ ∃ st, t.responses = s.responses ++ [⟨e, st⟩]

/-- R20, R27, R36: a field changes only by a host write to it, by reset while a command naming its record is in flight,
or by a command naming its record that completes with `Success`. -/
def Obligations.FieldsChangeOnlyForTheirOwnRecord : Prop :=
  ∀ (s t : State) (a : Addr), step s = .next t → ¬ SameAt s t a →
    (∃ v rest, s.agenda = .write a v :: rest) ∨
    (∃ n rest, s.agenda = .reset :: rest ∧ .busy a.ref n ∈ s.phases) ∨
    ∃ e n, phaseOf s e = .busy a.ref n ∧ phaseOf t e = .idle ∧ t.responses = s.responses ++ [⟨e, .success⟩]
end

