-- ==== Sys2Proof/Laws/Memory.lean ====
section
/-! SUPPORT. The laws of the storage list: what a write changes, what a read gives, and that the canonical form stays. -/

namespace Sys2Proof.Machine

/-! ### The order of addresses -/

theorem Field.rank_injective {f g : Field} (h : f.rank = g.rank) : f = g := by
  cases f <;> cases g <;> simp_all [Field.rank]

theorem Addr.ext_rank {a b : Addr} (hr : a.ref = b.ref) (hf : a.field.rank = b.field.rank) : a = b := by
  cases a; cases b; cases hr; cases Field.rank_injective hf; rfl

theorem Addr.before_irrefl (a : Addr) : ¬ a.Before a := by
  simp [Addr.Before]

theorem Addr.before_trans {a b c : Addr} (hab : a.Before b) (hbc : b.Before c) : a.Before c := by
  unfold Addr.Before at *
  omega

theorem Addr.before_of_not_before {a b : Addr} (hne : a ≠ b) (h : ¬ a.Before b) : b.Before a := by
  have : ¬ (a.ref = b.ref ∧ a.field.rank = b.field.rank) := fun ⟨hr, hf⟩ => hne (Addr.ext_rank hr hf)
  unfold Addr.Before at *
  omega

/-! ### Lookup and insertion -/

@[simp] theorem Memory.lookup_nil (a : Addr) : Memory.lookup [] a = none := rfl

@[simp] theorem Memory.lookup_cons (b a : Addr) (v : Nat) (m : Memory) :
    Memory.lookup ((b, v) :: m) a = if a = b then some v else Memory.lookup m a := rfl

theorem Memory.lookup_insert_self (m : Memory) (a : Addr) (v : Nat) :
    Memory.lookup (Memory.insert m a v) a = some v := by
  induction m with
  | nil => simp [Memory.insert]
  | cons x m ih =>
    obtain ⟨b, w⟩ := x
    simp only [Memory.insert]
    split_ifs <;> simp_all

theorem Memory.lookup_insert_of_ne (m : Memory) {a b : Addr} (v : Nat) (h : b ≠ a) :
    Memory.lookup (Memory.insert m a v) b = Memory.lookup m b := by
  induction m with
  | nil => simp [Memory.insert, h]
  | cons x m ih =>
    obtain ⟨d, w⟩ := x
    simp only [Memory.insert]
    split_ifs with h1 h2
    · subst h1; simp [h]
    · simp [h]
    · simp [ih]

theorem Memory.mem_insert {m : Memory} {a : Addr} {v : Nat} {x : Addr × Nat}
    (hx : x ∈ Memory.insert m a v) : x = (a, v) ∨ x ∈ m := by
  induction m with
  | nil => simpa [Memory.insert] using hx
  | cons y m ih =>
    obtain ⟨b, w⟩ := y
    simp only [Memory.insert] at hx
    split_ifs at hx <;> simp only [List.mem_cons] at hx ⊢ <;> tauto

/-- Writing keeps the canonical form. -/
theorem Memory.insert_wf {m : Memory} (h : m.wf) (a : Addr) (v : Nat) : (Memory.insert m a v).wf := by
  induction m with
  | nil => simp [Memory.wf, Memory.insert]
  | cons y m ih =>
    obtain ⟨b, w⟩ := y
    simp only [Memory.wf, List.pairwise_cons] at h
    obtain ⟨hb, hm⟩ := h
    simp only [Memory.insert]
    split_ifs with h1 h2
    · subst h1
      exact List.pairwise_cons.2 ⟨hb, hm⟩
    · refine List.pairwise_cons.2 ⟨fun x hx => ?_, List.pairwise_cons.2 ⟨hb, hm⟩⟩
      rcases List.mem_cons.1 hx with rfl | hx
      · exact h2
      · exact Addr.before_trans h2 (hb x hx)
    · refine List.pairwise_cons.2 ⟨fun x hx => ?_, ih hm⟩
      rcases Memory.mem_insert hx with rfl | hx
      · exact Addr.before_of_not_before h1 h2
      · exact hb x hx

/-! ### Reading and writing fields -/

theorem trunc_lt (w a : Nat) : trunc w a < 2 ^ w := Nat.mod_lt _ (Nat.two_pow_pos w)

theorem trunc_of_lt {w a : Nat} (h : a < 2 ^ w) : trunc w a = a := Nat.mod_eq_of_lt h

@[simp] theorem trunc_trunc (w a : Nat) : trunc w (trunc w a) = trunc w a := trunc_of_lt (trunc_lt w a)

theorem memRead_lt (c : Config) (m : Memory) (a : Addr) : memRead c m a < 2 ^ fieldBits c a.field :=
  trunc_lt _ _

/-- A read returns what the latest write put there, cut to the field's width. -/
@[simp] theorem memRead_memWrite_self (c : Config) (m : Memory) (a : Addr) (v : Nat) :
    memRead c (memWrite c m a v) a = trunc (fieldBits c a.field) v := by
  simp [memRead, memWrite, Memory.lookup_insert_self]

/-- A write leaves every other field alone. -/
theorem memRead_memWrite_of_ne (c : Config) (m : Memory) {a b : Addr} (v : Nat) (h : b ≠ a) :
    memRead c (memWrite c m a v) b = memRead c m b := by
  simp [memRead, memWrite, Memory.lookup_insert_of_ne m _ h]

theorem memWrite_wf (c : Config) {m : Memory} (h : m.wf) (a : Addr) (v : Nat) : (memWrite c m a v).wf :=
  Memory.insert_wf h a _

end Sys2Proof.Machine
end

