-- ==== Sys2Proof/Laws/State.lean ====
section
/-! SUPPORT. One lemma per field per update, each true by `rfl`, so that no proof unfolds a record update. -/

namespace Sys2Proof.Machine

section write
variable (s : State) (a : Addr) (v : Nat)

@[simp] theorem State.write_cfg : (s.write a v).cfg = s.cfg := rfl
@[simp] theorem State.write_phases : (s.write a v).phases = s.phases := rfl
@[simp] theorem State.write_storage : (s.write a v).storage = memWrite s.cfg s.storage a v := rfl
@[simp] theorem State.write_responses : (s.write a v).responses = s.responses := rfl
@[simp] theorem State.write_readData : (s.write a v).readData = s.readData := rfl
@[simp] theorem State.write_agenda : (s.write a v).agenda = s.agenda := rfl
@[simp] theorem State.write_active : (s.write a v).active = s.active := rfl
@[simp] theorem State.write_drawn : (s.write a v).drawn = s.drawn := rfl

end write

section wordWrite
variable (s : State) (r : Nat) (i : Nat) (v : Nat)

@[simp] theorem State.wordWrite_cfg : (s.wordWrite r i v).cfg = s.cfg := rfl
@[simp] theorem State.wordWrite_phases : (s.wordWrite r i v).phases = s.phases := rfl
@[simp] theorem State.wordWrite_storage :
    (s.wordWrite r i v).storage = memWrite s.cfg s.storage ⟨r, .word i⟩ v := rfl
@[simp] theorem State.wordWrite_responses : (s.wordWrite r i v).responses = s.responses := rfl
@[simp] theorem State.wordWrite_readData : (s.wordWrite r i v).readData = s.readData := rfl
@[simp] theorem State.wordWrite_agenda : (s.wordWrite r i v).agenda = s.agenda := rfl
@[simp] theorem State.wordWrite_active : (s.wordWrite r i v).active = s.active := rfl
@[simp] theorem State.wordWrite_drawn : (s.wordWrite r i v).drawn = s.drawn := rfl

end wordWrite

section lenWrite
variable (s : State) (r : Nat) (n : Nat)

@[simp] theorem State.lenWrite_cfg : (s.lenWrite r n).cfg = s.cfg := rfl
@[simp] theorem State.lenWrite_phases : (s.lenWrite r n).phases = s.phases := rfl
@[simp] theorem State.lenWrite_storage :
    (s.lenWrite r n).storage = memWrite s.cfg s.storage ⟨r, .len⟩ n := rfl
@[simp] theorem State.lenWrite_responses : (s.lenWrite r n).responses = s.responses := rfl
@[simp] theorem State.lenWrite_readData : (s.lenWrite r n).readData = s.readData := rfl
@[simp] theorem State.lenWrite_agenda : (s.lenWrite r n).agenda = s.agenda := rfl
@[simp] theorem State.lenWrite_active : (s.lenWrite r n).active = s.active := rfl
@[simp] theorem State.lenWrite_drawn : (s.lenWrite r n).drawn = s.drawn := rfl

end lenWrite

section setPhase
variable (s : State) (e : Nat) (p : Phase)

@[simp] theorem State.setPhase_cfg : (s.setPhase e p).cfg = s.cfg := rfl
@[simp] theorem State.setPhase_phases : (s.setPhase e p).phases = s.phases.set e p := rfl
@[simp] theorem State.setPhase_storage : (s.setPhase e p).storage = s.storage := rfl
@[simp] theorem State.setPhase_responses : (s.setPhase e p).responses = s.responses := rfl
@[simp] theorem State.setPhase_readData : (s.setPhase e p).readData = s.readData := rfl
@[simp] theorem State.setPhase_agenda : (s.setPhase e p).agenda = s.agenda := rfl
@[simp] theorem State.setPhase_active : (s.setPhase e p).active = s.active := rfl
@[simp] theorem State.setPhase_drawn : (s.setPhase e p).drawn = s.drawn := rfl

end setPhase

section respond
variable (st : Status) (s : State)

@[simp] theorem respond_cfg : (respond st s).cfg = s.cfg := rfl
@[simp] theorem respond_phases : (respond st s).phases = s.phases.set s.active .idle := rfl
@[simp] theorem respond_storage : (respond st s).storage = s.storage := rfl
@[simp] theorem respond_responses : (respond st s).responses = s.responses ++ [⟨s.active, st⟩] := rfl
@[simp] theorem respond_readData : (respond st s).readData = s.readData := rfl
@[simp] theorem respond_agenda : (respond st s).agenda = s.agenda := rfl
@[simp] theorem respond_active : (respond st s).active = s.active := rfl
@[simp] theorem respond_drawn : (respond st s).drawn = s.drawn := rfl

end respond

section takeResponse
variable (s : State)

@[simp] theorem takeResponse_cfg : (takeResponse s).cfg = s.cfg := rfl
@[simp] theorem takeResponse_phases : (takeResponse s).phases = s.phases := rfl
@[simp] theorem takeResponse_storage : (takeResponse s).storage = s.storage := rfl
@[simp] theorem takeResponse_responses : (takeResponse s).responses = s.responses.tail := rfl
@[simp] theorem takeResponse_readData : (takeResponse s).readData = s.readData := rfl
@[simp] theorem takeResponse_agenda : (takeResponse s).agenda = s.agenda := rfl
@[simp] theorem takeResponse_active : (takeResponse s).active = s.active := rfl
@[simp] theorem takeResponse_drawn : (takeResponse s).drawn = s.drawn := rfl

end takeResponse

end Sys2Proof.Machine
end

