-- ==== Sys2Proof/Laws/Ops.lean ====
section
/-! SUPPORT. What each shared operation can do, said once: records, the contract check, the success path's writes, the
abandoned record, and the ways SHL, COMPLETE and a presentation can end. -/

namespace Sys2Proof.Machine

/-! ### Records -/

@[simp] theorem recordOf_len (c : Config) (m : Memory) (r : Nat) :
    (recordOf c m r).len = memRead c m ⟨r, .len⟩ := rfl

@[simp] theorem recordOf_words_length (c : Config) (m : Memory) (r : Nat) :
    (recordOf c m r).words.length = c.CAPACITY := by simp [recordOf]

theorem recordOf_word (c : Config) (m : Memory) (r : Nat) {i : Nat} (h : i < c.CAPACITY) :
    (recordOf c m r).word i = memRead c m ⟨r, .word i⟩ := by
  simp [recordOf, Record.word, List.getD, List.getElem?_map, List.getElem?_range h]

theorem recordOf_shaped (c : Config) (m : Memory) (r : Nat) : (recordOf c m r).Shaped c := by
  refine ⟨by simp, fun x hx => ?_, memRead_lt c m _⟩
  simp only [recordOf, List.mem_map] at hx
  obtain ⟨i, -, rfl⟩ := hx
  exact memRead_lt c m _

/-- A record depends on the reads of its own fields only. -/
theorem recordOf_congr {c : Config} {m m' : Memory} {r : Nat}
    (h : ∀ f, memRead c m' ⟨r, f⟩ = memRead c m ⟨r, f⟩) : recordOf c m' r = recordOf c m r := by
  simp [recordOf, h]

/-! ### The contract check -/

/-- The check passes exactly under the precondition of R80. -/
theorem contractBreach_eq_none {s : State} {ref : Nat} : contractBreach s ref = none ↔ Precondition s ref := by
  unfold contractBreach Precondition
  split_ifs with h1 h2 h3
  · simp [h1]
  · simp [h1, h2]
  · simp only [true_iff]; exact fun _ => ⟨by simpa using h2, h3⟩
  · simp only [false_iff]; exact fun h => h3 (h h1).2

/-- It refuses with one of two reasons. -/
theorem contractBreach_eq_some {s : State} {ref : Nat} {why : Refusal} (h : contractBreach s ref = some why) :
    ref ≠ 0 ∧ ((isPopulated s.cfg ref = false ∧ why = .unpopulatedReference) ∨
      (isPopulated s.cfg ref = true ∧ ¬ (record s ref).Valid s.cfg ∧ why = .invalidRecord)) := by
  unfold contractBreach at h
  split_ifs at h with h1 h2 h3 <;> simp_all

/-- A populated reference is not null. -/
theorem ne_zero_of_isPopulated {c : Config} {r : Nat} (h : isPopulated c r = true) : r ≠ 0 := by
  simp only [isPopulated, Bool.and_eq_true, decide_eq_true_eq] at h
  omega

/-! ### A run of word writes -/

/-- The other fields of State stay, and the storage is rewritten field by field. -/
theorem foldl_wordWrite_eq (r : Nat) (f : Nat → Nat) (js : List Nat) (s : State) :
    js.foldl (fun u j => u.wordWrite r j (f j)) s =
      { s with storage := js.foldl (fun m j => memWrite s.cfg m ⟨r, .word j⟩ (f j)) s.storage } := by
  induction js generalizing s with
  | nil => rfl
  | cons j js ih => simp [ih]

/-- After the run, a word in the list holds its new contents, and every other field is as before. -/
theorem memRead_foldl_wordWrite (c : Config) (r : Nat) (f : Nat → Nat) (js : List Nat) (m : Memory) (a : Addr) :
    memRead c (js.foldl (fun m j => memWrite c m ⟨r, .word j⟩ (f j)) m) a =
      match a.field with
      | .len => memRead c m a
      | .word i => if a.ref = r ∧ i ∈ js then trunc c.W (f i) else memRead c m a := by
  induction js generalizing m with
  | nil => cases a.field <;> simp
  | cons j js ih =>
    obtain ⟨ar, af⟩ := a
    rw [List.foldl_cons, ih]
    cases af with
    | len => exact memRead_memWrite_of_ne c m _ (by simp)
    | word i =>
      by_cases hij : ar = r ∧ i = j
      · obtain ⟨rfl, rfl⟩ := hij
        simp [fieldBits]
      · have hne : (⟨ar, .word i⟩ : Addr) ≠ ⟨r, .word j⟩ := by simpa using hij
        simp only [memRead_memWrite_of_ne c m _ hne, List.mem_cons]
        by_cases h : ar = r <;> simp_all

theorem foldl_wordWrite_wf (c : Config) (r : Nat) (f : Nat → Nat) (js : List Nat) {m : Memory} (h : m.wf) :
    Memory.wf (js.foldl (fun m j => memWrite c m ⟨r, .word j⟩ (f j)) m) := by
  induction js generalizing m with
  | nil => exact h
  | cons j js ih => exact ih (memWrite_wf c h _ _)

/-! ### The success path -/

/-- Only the storage changes. -/
theorem storeShifted_eq (ref : Nat) (v : Record) (n : Nat) (s : State) :
    storeShifted ref v n s = { s with storage := (storeShifted ref v n s).storage } := by
  simp [storeShifted, foldl_wordWrite_eq, State.lenWrite, State.write]

/-- Every field after the success path: the written words, the new length, and the rest as before. -/
theorem memRead_storeShifted (ref : Nat) (v : Record) (n : Nat) (s : State) (a : Addr) :
    memRead s.cfg (storeShifted ref v n s).storage a =
      if a.ref = ref then
        match a.field with
        | .len => trunc s.cfg.LEN_BITS (newLen s.cfg v n)
        | .word i =>
          if i < writtenWords s.cfg v n then trunc s.cfg.W (newWord s.cfg v n i) else memRead s.cfg s.storage a
      else memRead s.cfg s.storage a := by
  obtain ⟨ar, af⟩ := a
  simp only [storeShifted, foldl_wordWrite_eq, State.lenWrite_storage]
  by_cases hr : ar = ref
  · subst hr
    cases af with
    | len => simp [fieldBits]
    | word i =>
      rw [memRead_memWrite_of_ne _ _ _ (by simp), memRead_foldl_wordWrite]
      simp [writtenIndices]
  · rw [memRead_memWrite_of_ne _ _ _ (by simp [hr]), memRead_foldl_wordWrite]
    cases af <;> simp [hr]

theorem storeShifted_wf (ref : Nat) (v : Record) (n : Nat) {s : State} (h : s.storage.wf) :
    (storeShifted ref v n s).storage.wf := by
  simp only [storeShifted, foldl_wordWrite_eq, State.lenWrite_storage]
  exact memWrite_wf _ (foldl_wordWrite_wf _ _ _ _ h) _ _

/-! ### SHL -/

/-- SHL goes on exactly under the precondition of R80, and then it is the pseudocode. -/
theorem execShl_next {ref : Nat} {n : Nat} {s t : State} :
    execShl ref n s = .next t ↔ Precondition s ref ∧ t = shlComplete ref n s := by
  rw [← contractBreach_eq_none]
  unfold execShl
  cases contractBreach s ref <;> simp [eq_comm]

/-- What SHL can leave: a response with the status of the case, and the success path's writes in case 5 only. -/
theorem shlComplete_eq (ref : Nat) (n : Nat) (s : State) :
    shlComplete ref n s =
      respond (shlCase s.cfg ref n (record s ref)).status
        (if shlCase s.cfg ref n (record s ref) = .shifted then storeShifted ref (record s ref) n s else s) := by
  unfold shlComplete
  cases shlCase s.cfg ref n (record s ref) <;> rfl

/-- Case 5 is what its four conditions say (R81). -/
theorem shlCase_eq_shifted {c : Config} {ref n : Nat} {v : Record} :
    shlCase c ref n v = .shifted ↔ ref ≠ 0 ∧ 0 < n ∧ 0 < v.len ∧ v.bitlen c + n ≤ c.capBits := by
  unfold shlCase overflows
  split_ifs with h1 h2 h3 h4
  · simp [h1]
  · simp [h2]
  · simp [h3]
  · simp only [Bool.and_eq_true, decide_eq_true_eq] at h4
    simp only [false_iff]
    omega
  · simp only [Bool.and_eq_true, decide_eq_true_eq] at h4
    simp only [true_iff]
    omega

/-- The status of a case is `Overflow` in case 4 only, and `NullArgument` in case 1 only (R81, R130). -/
theorem status_ne_success {k : ShlCase} (h : k.status ≠ .success) : k = .nullReference ∨ k = .overflow := by
  cases k <;> simp_all [ShlCase.status]

/-- SHL touches no field of State but the phases, the storage and the responses. -/
theorem shlComplete_fields (ref : Nat) (n : Nat) (s : State) :
    (shlComplete ref n s).cfg = s.cfg ∧ (shlComplete ref n s).phases = s.phases.set s.active .idle ∧
      (shlComplete ref n s).readData = s.readData ∧ (shlComplete ref n s).agenda = s.agenda ∧
      (shlComplete ref n s).active = s.active ∧ (shlComplete ref n s).drawn = s.drawn := by
  rw [shlComplete_eq]
  split_ifs
  · rw [storeShifted_eq]; simp
  · simp

/-! ### Steps -/

/-- The ways COMPLETE ends in a next state. -/
theorem complete_next {e : Nat} {s t : State} (h : complete e s = .next t) :
    (phaseOf s e = .idle ∧ t = s) ∨
      ∃ ref n, phaseOf s e = .busy ref n ∧ Precondition s ref ∧ t = shlComplete ref n { s with active := e } := by
  unfold complete at h
  cases hp : phaseOf s e with
  | idle => simp_all [eq_comm]
  | busy ref n =>
    rw [hp] at h
    obtain ⟨hpre, rfl⟩ := execShl_next.1 h
    exact .inr ⟨ref, n, rfl, hpre, rfl⟩

/-- ACCEPT of a command within the contract only changes the phase. -/
theorem accept_next {e : Nat} {ref : Nat} {n : Nat} {s t : State} :
    accept e (.shl ref n) s = .next t ↔ Precondition s ref ∧ t = s.setPhase e (.busy ref n) := by
  rw [← contractBreach_eq_none]
  unfold accept
  cases h : contractBreach s ref <;> simp [h, eq_comm]

/-- The ways a presentation ends in a next state: ACCEPT by an idle engine, or a wait while a busy engine completes. -/
theorem present_next {e cmd : Nat} {s t : State} (h : present e cmd s = .next t) :
    e < s.cfg.NENGINES ∧ ∃ ref n, decode s.cfg cmd = .ok (.shl ref n) ∧ owned s ref = false ∧
      ((phaseOf s e = .idle ∧ Precondition s ref ∧ t = s.setPhase e (.busy ref n)) ∨
        (phaseOf s e ≠ .idle ∧ complete e { s with agenda := .present e cmd :: s.agenda } = .next t)) := by
  unfold present at h
  split_ifs at h with he
  refine ⟨by omega, ?_⟩
  cases hd : decode s.cfg cmd with
  | error err => cases err; simp [hd] at h
  | ok i =>
    obtain ⟨ref, n⟩ := i
    simp only [hd] at h
    split_ifs at h with ho
    refine ⟨ref, n, rfl, by simpa using ho, ?_⟩
    cases hp : phaseOf s e with
    | idle =>
      simp only [hp] at h
      obtain ⟨hpre, ht⟩ := accept_next.1 h
      exact .inl ⟨rfl, hpre, ht⟩
    | busy r k =>
      simp only [hp] at h
      exact .inr ⟨by simp, h⟩

/-- A host read that goes on only records what it read. -/
theorem hostRead_next {a : Addr} {s t : State} :
    hostRead a s = .next t ↔ isAddress s.cfg a = true ∧ owned s a.ref = false ∧
      t = { s with readData := s.readData ++ [(a, memRead s.cfg s.storage a)] } := by
  unfold hostRead
  split_ifs with h1 h2
  · simp [h1]
  · simp [h2]
  · simp only [Host.Outcome.next.injEq, eq_comm (b := t)]
    exact ⟨fun h => ⟨by simpa using h1, by simpa using h2, h⟩, fun h => h.2.2⟩

/-- A host write that goes on only writes the field. -/
theorem hostWrite_next {a : Addr} {v : Nat} {s t : State} :
    hostWrite a v s = .next t ↔ isAddress s.cfg a = true ∧ owned s a.ref = false ∧ t = s.write a v := by
  unfold hostWrite
  split_ifs with h1 h2
  · simp [h1]
  · simp [h2]
  · simp only [Host.Outcome.next.injEq, eq_comm (b := t)]
    exact ⟨fun h => ⟨by simpa using h1, by simpa using h2, h⟩, fun h => h.2.2⟩

/-! ### Reset -/

/-- Abandoning changes the storage and the count of free values only. -/
theorem abandonRecord_eq (r : Nat) (s : State) :
    abandonRecord r s =
      { s with
        storage := (abandonRecord r s).storage
        drawn := s.drawn + 1 + s.cfg.CAPACITY } := by
  simp only [abandonRecord, foldl_wordWrite_eq]; rfl

/-- Records of other references are unaffected by an abandoned command. -/
theorem memRead_abandonRecord_of_ne {r : Nat} (s : State) {a : Addr} (h : a.ref ≠ r) :
    memRead s.cfg (abandonRecord r s).storage a = memRead s.cfg s.storage a := by
  obtain ⟨ar, af⟩ := a
  have hne : ∀ f, (⟨ar, af⟩ : Addr) ≠ ⟨r, f⟩ := fun f hf => h (by cases hf; rfl)
  simp only [abandonRecord, foldl_wordWrite_eq, State.lenWrite_cfg, State.lenWrite_storage]
  rw [memRead_foldl_wordWrite]
  cases af <;> simp_all [memRead_memWrite_of_ne]

theorem abandonRecord_wf (r : Nat) {s : State} (h : s.storage.wf) : (abandonRecord r s).storage.wf := by
  simp only [abandonRecord, foldl_wordWrite_eq, State.lenWrite_cfg, State.lenWrite_storage]
  exact foldl_wordWrite_wf _ _ _ _ (memWrite_wf _ h _ _)

/-- An abandoned phase either changes nothing or abandons the record it names. -/
theorem abandon_cases (s : State) (p : Phase) :
    abandon s p = s ∨ ∃ r n, p = .busy r n ∧ isPopulated s.cfg r = true ∧ abandon s p = abandonRecord r s := by
  cases p with
  | idle => exact .inl rfl
  | busy r n =>
    by_cases h : isPopulated s.cfg r = true
    · exact .inr ⟨r, n, rfl, h, by simp [abandon, h]⟩
    · exact .inl (by simp [abandon, h])

@[simp] theorem abandon_cfg (s : State) (p : Phase) : (abandon s p).cfg = s.cfg := by
  rcases abandon_cases s p with h | ⟨r, n, -, -, h⟩ <;> rw [h]
  rw [abandonRecord_eq]

/-- Reset keeps the canonical form of the storage. -/
theorem foldl_abandon_wf (ps : List Phase) {s : State} (h : s.storage.wf) :
    (ps.foldl abandon s).storage.wf := by
  induction ps generalizing s with
  | nil => exact h
  | cons p ps ih =>
    refine ih ?_
    rcases abandon_cases s p with hp | ⟨r, n, -, -, hp⟩ <;> rw [hp]
    · exact h
    · exact abandonRecord_wf r h

theorem pullReset_wf {s : State} (h : s.storage.wf) : (pullReset s).storage.wf := foldl_abandon_wf _ h

/-- The storage of the reset state is in canonical form. -/
theorem resetOf_wf (c : Config) : (State.resetOf c).storage.wf := by simp [State.resetOf, Memory.wf]

end Sys2Proof.Machine
end

