-- ==== Sys2Proof/Laws/PerInstr.lean ====
section
/-! SUPPORT. Statements about every instruction, one lemma per constructor. -/

namespace Sys2Proof.Laws.EncodeFits

/-- The encoding of a well-formed instruction is a command word: it fits `REF_BITS + SA_BITS` bits (R60). -/
def Statement (i : Instr) : Prop :=
  ∀ c : Config, WellFormed c i = true → encode c i < 2 ^ c.cmdBits

theorem shl (ref : Nat) (shamt : Nat) : Statement (.shl ref shamt) := by
  intro c h
  simp only [WellFormed, Bool.and_eq_true, decide_eq_true_eq] at h
  obtain ⟨hr, hs⟩ := h
  have hcmd : (2 : Nat) ^ c.cmdBits = 2 ^ c.REF_BITS * 2 ^ c.SA_BITS := pow_add 2 c.REF_BITS c.SA_BITS
  have hcat : encode c (.shl ref shamt) = ref * 2 ^ c.SA_BITS + shamt := by
    rw [encode, concatBits, ← Nat.shiftLeft_add_eq_or_of_lt hs, Nat.shiftLeft_eq]
  rw [hcat, hcmd]
  calc ref * 2 ^ c.SA_BITS + shamt < ref * 2 ^ c.SA_BITS + 2 ^ c.SA_BITS := by omega
    _ = (ref + 1) * 2 ^ c.SA_BITS := by ring
    _ ≤ 2 ^ c.REF_BITS * 2 ^ c.SA_BITS := Nat.mul_le_mul_right _ hr

end Sys2Proof.Laws.EncodeFits
end

