-- ==== Sys2Proof/Tests/Slice0.lean ====
section
/-! SUPPORT. The model's own tests: every expected value is the spec's, named at the test. The witnesses of the
statements' hypotheses stand in Tests/Witnesses.lean. -/

namespace Sys2Proof.Tests

open Sys2Proof Sys2Proof.Machine

/-! ### Helpers -/

/-- `0xFFFFFFFFFFFFFFFF`. -/
abbrev F16 : Nat := 0xFFFFFFFFFFFFFFFF

/-- The machine after the host has written the record `v` at reference `r`. -/
def put (s : State) (r : Nat) (v : Record) : State :=
  ((List.range v.words.length).foldl (fun u i => u.wordWrite r i (v.word i)) s).lenWrite r v.len

/-- The reset machine with one record, at reference 1. -/
abbrev one (v : Record) : State := put State.reset 1 v

/-- The next state, if the outcome is one. -/
def nextOf : Result → Option State
  | .next t => some t
  | _ => none

/-- The status and the record 1 that `SHL 1, n` leaves. -/
def shlOn (v : Record) (n : Nat) : Option (List Response × Record) :=
  (nextOf (exec (.shl 1 n) (one v))).map fun t => (t.responses, record t 1)

/-- Two engines, records 1 and 2 alone populated. -/
def pairCfg : Config := { Config.reference with NENGINES := 2, populated := .only [1, 2] }

/-- X6 of 95_test_vectors.md: engine 0 holds `(1, 4)`, engine 1 holds `(2, 1)`. -/
def pair : State :=
  { put (put (State.resetOf pairCfg) 1 ⟨[5, 0, 0, 0], 1⟩) 2 ⟨[0x8000000000000000, 0, 0, 0], 1⟩ with
    phases := [.busy 1 4, .busy 2 1] }

/-- Two engines and the two records of `pair`, no command in flight. -/
def pairIdle : State := { pair with phases := [.idle, .idle] }

/-- Configuration P4: words of 8 bits, three of them. -/
def smallCfg : Config := { Config.reference with W := 8, CAPACITY := 3, LEN_BITS := 2 }

theorem reference_wf : Config.reference.Wf :=
  ⟨by decide, by decide, by decide, by decide, by decide, by decide, trivial⟩

theorem pairCfg_wf : pairCfg.Wf :=
  ⟨by decide, by decide, by decide, by decide, by decide, by decide, by
    show ∀ r ∈ [1, 2], 1 ≤ r ∧ r < 2 ^ 32
    decide⟩

/-! ### Well-formedness: every check refuses an ill-formed term -/

theorem test_wellFormed_refuses_wide_ref : WellFormed Config.reference (.shl (2 ^ 32) 0) = false := by decide
theorem test_wellFormed_refuses_wide_shamt : WellFormed Config.reference (.shl 0 (2 ^ 64)) = false := by decide
theorem test_wellFormed_admits_the_largest : WellFormed Config.reference (.shl (2 ^ 32 - 1) (2 ^ 64 - 1)) = true := by
  decide
theorem test_config_refuses_zero_word_width : ¬ { Config.reference with W := 0 }.Wf := fun h => absurd h.1 (by decide)
theorem test_config_refuses_zero_capacity : ¬ { Config.reference with CAPACITY := 0 }.Wf :=
  fun h => absurd h.2.1 (by decide)
theorem test_config_refuses_narrow_len : ¬ { Config.reference with LEN_BITS := 2 }.Wf :=
  fun h => absurd h.2.2.1 (by decide)
theorem test_config_refuses_zero_ref_bits : ¬ { Config.reference with REF_BITS := 0 }.Wf :=
  fun h => absurd h.2.2.2.1 (by decide)
theorem test_config_refuses_zero_shamt_bits : ¬ { Config.reference with SA_BITS := 0 }.Wf :=
  fun h => absurd h.2.2.2.2.1 (by decide)
theorem test_config_refuses_no_engine : ¬ { Config.reference with NENGINES := 0 }.Wf :=
  fun h => absurd h.2.2.2.2.2.1 (by decide)
theorem test_config_refuses_null_populated : ¬ { Config.reference with populated := .only [0] }.Wf :=
  fun h => absurd (h.2.2.2.2.2.2 0 (by simp)) (by decide)
/-- R8, R12: the default `LEN_BITS` for `CAPACITY = 4` is 3, for 3 it is 2 (P4). -/
theorem test_least_len_bits : Config.leastLenBits 4 = 3 ∧ Config.leastLenBits 3 = 2 := by decide

/-! ### Decoding: words written out from R60 -/

/-- `REF = 1` is bit 64; `SHAMT = 4` is bit 2 (R60, R69 row 1). -/
theorem test_decode_shl_bits : decodeTableWord 96 (2 ^ 64 + 2 ^ 2) = some (.shl 1 4) := by decide
/-- The top bit of each field: bit 95 is `REF[31]`, bit 63 is `SHAMT[63]`. -/
theorem test_decode_field_tops : decodeTableWord 96 (2 ^ 95 + 2 ^ 63) = some (.shl (2 ^ 31) (2 ^ 63)) := by decide
/-- 97 bits are no command word. -/
theorem test_decode_refuses_wide_word :
    (match decode Config.reference (2 ^ 96) with | .ok _ => false | .error e => e == .notACommandWord) = true := by
  decide

/-! ### SHL: vectors of 95_test_vectors.md -/

/-- E2, B5, B6, W4, M4, M6, O17 of sections 1 and 2. -/
theorem test_shl_moves_and_carries :
    shlOn ⟨[0x8000000000000000, 0, 0, 0], 1⟩ 1 = some ([⟨0, .success⟩], ⟨[0, 1, 0, 0], 2⟩) ∧
    shlOn ⟨[0x0123456789ABCDEF, 0xFEDCBA9876543210, 0xF, 0], 3⟩ 8 =
      some ([⟨0, .success⟩], ⟨[0x23456789ABCDEF00, 0xDCBA987654321001, 0xFFE, 0], 3⟩) ∧
    shlOn ⟨[F16, F16, F16, 0x7FFFFFFFFFFFFFFF], 4⟩ 1 =
      some ([⟨0, .success⟩], ⟨[0xFFFFFFFFFFFFFFFE, F16, F16, F16], 4⟩) ∧
    shlOn ⟨[0xAAAA, 0xBBBB, 0x99, 0x77], 2⟩ 64 = some ([⟨0, .success⟩], ⟨[0, 0xAAAA, 0xBBBB, 0x77], 3⟩) ∧
    shlOn ⟨[0xF0F0F0F0F0F0F0F0, 0xF, 0, 0], 2⟩ 100 =
      some ([⟨0, .success⟩], ⟨[0, 0x0F0F0F0000000000, 0x000000FF0F0F0F0F, 0], 3⟩) ∧
    shlOn ⟨[0x0123456789ABCDEF, 0, 0x77, 0x88], 1⟩ 132 =
      some ([⟨0, .success⟩], ⟨[0, 0, 0x123456789ABCDEF0, 0], 3⟩) ∧
    shlOn ⟨[0, 1, 0xAB, 0xCD], 2⟩ 191 = some ([⟨0, .success⟩], ⟨[0, 0, 0, 0x8000000000000000], 4⟩) := by
  decide +kernel

/-- S3, Z3, O6, O7, O9, O16 of section 2: nothing is written. -/
theorem test_shl_leaves_the_record :
    shlOn ⟨[0x11, 0x22, 0xAA, 0xBB], 2⟩ 0 = some ([⟨0, .success⟩], ⟨[0x11, 0x22, 0xAA, 0xBB], 2⟩) ∧
    shlOn ⟨[0xDEADBEEF, 0x1234, F16, 7], 0⟩ 257 = some ([⟨0, .success⟩], ⟨[0xDEADBEEF, 0x1234, F16, 7], 0⟩) ∧
    shlOn ⟨[F16, F16, F16, F16], 4⟩ (2 ^ 64 - 1) = some ([⟨0, .overflow⟩], ⟨[F16, F16, F16, F16], 4⟩) ∧
    shlOn ⟨[1, 0, 0, 0], 1⟩ (2 ^ 64 - 1) = some ([⟨0, .overflow⟩], ⟨[1, 0, 0, 0], 1⟩) ∧
    shlOn ⟨[0, 0, 0, 1], 4⟩ 64 = some ([⟨0, .overflow⟩], ⟨[0, 0, 0, 1], 4⟩) ∧
    shlOn ⟨[0, 1, 0xAB, 0xCD], 2⟩ 192 = some ([⟨0, .overflow⟩], ⟨[0, 1, 0xAB, 0xCD], 2⟩) := by
  decide +kernel

/-- The pure function in configuration P4, steps 1, 3 and 4. -/
theorem test_shl_small_configuration :
    shl smallCfg ⟨[0xAB, 0, 0], 1⟩ 4 = (.success, ⟨[0xB0, 0x0A, 0], 2⟩) ∧
    shl smallCfg ⟨[0, 0xB0, 0x0A], 3⟩ 4 = (.success, ⟨[0, 0, 0xAB], 3⟩) ∧
    shl smallCfg ⟨[0, 0, 0xAB], 3⟩ 1 = (.overflow, ⟨[0, 0, 0xAB], 3⟩) := by decide +kernel

/-- R115's and R116's worked examples: sequence A on E2, sequence B on M1. -/
theorem test_sequences_worked_examples :
    recordOf Config.reference
        (runSequence sequenceA Config.reference 1 1 ⟨(one ⟨[0x8000000000000000, 0, 0, 0], 1⟩).storage, []⟩).2.mem 1 =
      ⟨[0, 1, 0, 0], 2⟩ ∧
    recordOf Config.reference
        (runSequence sequenceB Config.reference 1 68 ⟨(one ⟨[F16, 1, 0x5555, 0x6666], 2⟩).storage, []⟩).2.mem 1 =
      ⟨[0, 0xFFFFFFFFFFFFFFF0, 0x1F, 0], 3⟩ := by decide +kernel

/-! ### Steps: section 2.9 of 95_test_vectors.md -/

/-- X1: `REF = 5`, unpopulated: refused when presented, and by SHL itself. -/
theorem test_unpopulated_is_refused :
    step { pairIdle with agenda := [.present 0 0x000000050000000000000001] } = .refused .unpopulatedReference ∧
    exec (.shl 5 1) pairIdle = .refused .unpopulatedReference := ⟨rfl, rfl⟩

/-- X2, X3: a zero top significant word, and `len = 5 > CAPACITY`. -/
theorem test_invalid_record_is_refused :
    exec (.shl 1 1) (one ⟨[0, 0, 0, 0], 1⟩) = .refused .invalidRecord ∧
    exec (.shl 1 1) (one ⟨[1, 1, 1, 1], 5⟩) = .refused .invalidRecord := ⟨rfl, rfl⟩

/-- X4: the host reads `S[1].len` while `(1, 4)` is in flight. -/
theorem test_access_to_owned_record_faults :
    step { pair with agenda := [.read ⟨1, .len⟩] } = .fault .concurrentAccess := rfl

/-- X5: engine 0 holds `(1, 4)`, engine 1 is presented `(1, 1)`. -/
theorem test_second_command_faults :
    step { pairIdle with phases := [.busy 1 4, .idle], agenda := [.present 1 0x000000010000000000000001] } =
      .fault .concurrentCommand := rfl

/-- X6: both complete; `0x5` shifted by 4, and E2. -/
theorem test_two_engines_complete :
    (match Sys2Proof.core.run 2 pair with
      | .next t => decide (record t 1 = ⟨[0x50, 0, 0, 0], 1⟩ ∧ record t 2 = ⟨[0, 1, 0, 0], 2⟩ ∧
          t.responses = [⟨0, .success⟩, ⟨1, .success⟩] ∧ t.phases = [.idle, .idle])
      | _ => false) = true := by decide +kernel

/-- X7: reset while engine 0 holds `(1, 4)`: idle, no response, record 2 unchanged. -/
theorem test_reset_abandons :
    (match step { pair with phases := [.busy 1 4, .idle], agenda := [.reset] } with
      | .next t => decide (t.phases = [.idle, .idle] ∧ t.responses = [] ∧ record t 2 = record pair 2)
      | _ => false) = true := by decide +kernel

/-- X8: reset while every engine is idle changes nothing. -/
theorem test_reset_of_idle_machine : step { pairIdle with agenda := [.reset] } = .next pairIdle := rfl

/-- X9: a read of `S[2]` while `(1, 4)` alone is in flight. -/
theorem test_access_to_other_record_goes_on :
    (nextOf (step { pair with phases := [.busy 1 4, .idle], agenda := [.read ⟨2, .len⟩] })).map (·.readData) =
      some [(⟨2, .len⟩, 1)] := by decide

/-- R40, R44: no null record, no word at `CAPACITY`. -/
theorem test_no_such_address :
    step { pairIdle with agenda := [.read ⟨0, .len⟩] } = .fault .noSuchAddress ∧
    step { pairIdle with agenda := [.write ⟨1, .word 4⟩ 0] } = .fault .noSuchAddress := ⟨rfl, rfl⟩

/-- The host takes the oldest response. -/
theorem test_take_response :
    (nextOf (step { pairIdle with responses := [⟨0, .success⟩, ⟨1, .overflow⟩], agenda := [.take] })).map
      (·.responses) = some [⟨1, .overflow⟩] := by decide

/-- N1 placed where the first step runs it: `NullArgument`. -/
theorem test_first_step_runs_placed_command :
    (nextOf (step (State.reset.withFetchWord 96 5))).map (·.responses) = some [⟨0, .nullArgument⟩] := by decide

/-! ### Text: R67 -/

theorem test_text_of_command :
    commandText (.shl 0 5) = "shift_left(null, 5)" ∧ mnemonicText (.shl 1 4) = "SHL 1, 4" ∧
    exchangeText (.shl 1 1) .overflow = "shift_left(1, 1) -> Overflow" := by decide +kernel

/-- The records of R80's worked example as R80 writes them, and the capital digits of B3 in 95_test_vectors.md. -/
theorem test_text_of_record :
    (recordText ⟨[0x8000000000000000, 0, 0, 0], 1⟩).toList =
      Char.ofNat 123 :: "words:[0x8000000000000000,0,0,0], len:1".toList ++ [Char.ofNat 125] ∧
    (recordText ⟨[0, 1, 0, 0], 2⟩).toList = Char.ofNat 123 :: "words:[0,0x1,0,0], len:2".toList ++ [Char.ofNat 125] ∧
    wordText 0xFFFFFFFFFFFFFFFE = "0xFFFFFFFFFFFFFFFE" := by
  decide +kernel

theorem test_read_mnemonic_form :
    readCommand Config.reference [] "SHL null, 0x10" = some (.shl 0 16) ∧
    readCommand Config.reference [] "SHL 1, 18446744073709551616" = none ∧
    readCommand Config.reference [] "SHL 0, 1" = none := by decide +kernel

end Sys2Proof.Tests
end

