-- ==== Sys2Proof/Tests/Witnesses.lean ====
section
/-! SUPPORT. For each statement with hypotheses, a named theorem that meets them all: the hypotheses of the statements can
be met, each clause at a boundary of its range. -/

namespace Sys2Proof.Tests

open Sys2Proof Sys2Proof.Machine

/-- DecodeOfEncodeIsTheInstruction, CommandWordHoldsRefAboveShamt: the largest operands. -/
theorem witness_largest_operands :
    Config.reference.Wf ∧ WellFormed Config.reference (.shl (2 ^ 32 - 1) (2 ^ 64 - 1)) = true ∧
    (2 ^ 32 - 1 < 2 ^ Config.reference.REF_BITS ∧ 2 ^ 64 - 1 < 2 ^ Config.reference.SA_BITS) :=
  ⟨reference_wf, by decide, by decide⟩

/-- EveryCommandWordDecodesToOneShl: the last command word, and the first number that is none. -/
theorem witness_command_word_bounds :
    Config.reference.Wf ∧ 2 ^ 96 - 1 < 2 ^ (Config.reference.REF_BITS + Config.reference.SA_BITS) ∧
    2 ^ (Config.reference.REF_BITS + Config.reference.SA_BITS) ≤ 2 ^ 96 := ⟨reference_wf, by decide, by decide⟩

/-- BitLengthIsTheUniqueBound: both ends of the words of 64 bits. -/
theorem witness_bit_length_bounds :
    (2 ^ (64 - 1) ≤ 2 ^ 63 ∧ 2 ^ 63 < 2 ^ 64) ∧ (2 ^ (1 - 1) ≤ 1 ∧ 1 < 2 ^ 1) := by decide

/-- The statements over a configuration and a valid value in case 5, at the boundary `L + s = CAPBITS` (O1): BitlenIs…,
OperandBitLengthIsBounded, OverflowTestCannotWrap, PassedOverflowTest…, NewLength…, ScanFrom…,
ShiftAmountSplits…; here `t = CAPACITY`. -/
theorem witness_boundary_value :
    Config.reference.Wf ∧ Record.Shaped Config.reference ⟨[1, 0, 0, 0], 1⟩ ∧
    Record.Valid Config.reference ⟨[1, 0, 0, 0], 1⟩ ∧ (0 : Nat) < 1 ∧
    Record.bitlen Config.reference ⟨[1, 0, 0, 0], 1⟩ + 255 = Config.reference.capBits ∧
    overflows Config.reference ⟨[1, 0, 0, 0], 1⟩ 255 = false ∧
    topIndex Config.reference ⟨[1, 0, 0, 0], 1⟩ 255 = Config.reference.CAPACITY ∧
    255 < 2 ^ Config.reference.SA_BITS ∧ Config.reference.W = 2 ^ 6 := ⟨reference_wf, by decide +kernel⟩

/-- The same statements where a carry-out word is not 0 (E2), and for the zero value. -/
theorem witness_carry_out_value :
    Record.Valid Config.reference ⟨[2 ^ 63, 0, 0, 0], 1⟩ ∧
    carryOut Config.reference ⟨[2 ^ 63, 0, 0, 0], 1⟩ (bitShift Config.reference 1) ≠ 0 ∧
    Record.Shaped Config.reference ⟨[7, 0, 0, 0], 0⟩ ∧ Record.Valid Config.reference ⟨[7, 0, 0, 0], 0⟩ := by
  decide +kernel

/-- OverflowTestCannotWrap, last clause (O7). -/
theorem witness_bit_length_one : Record.bitlen Config.reference ⟨[1, 0, 0, 0], 1⟩ = 1 := by decide

/-- WholeWordShiftMovesWordsOnly (W3, at the boundary). -/
theorem witness_whole_word_shift :
    Config.reference.Wf ∧ Record.Shaped Config.reference ⟨[F16, 0, 0, 0], 1⟩ ∧
    Record.Valid Config.reference ⟨[F16, 0, 0, 0], 1⟩ ∧
    Record.bitlen Config.reference ⟨[F16, 0, 0, 0], 1⟩ + 3 * Config.reference.W =
      Config.reference.CAPACITY * Config.reference.W := ⟨reference_wf, by decide +kernel⟩

/-- InsignificantWordsHaveNoInfluence: two records that differ in garbage alone. -/
theorem witness_same_value :
    Config.reference.Wf ∧ Record.Shaped Config.reference ⟨[5, 0, 0, 0], 1⟩ ∧
    Record.Shaped Config.reference ⟨[5, 7, F16, 9], 1⟩ ∧ Record.Valid Config.reference ⟨[5, 0, 0, 0], 1⟩ ∧
    Record.SameValue ⟨[5, 0, 0, 0], 1⟩ ⟨[5, 7, F16, 9], 1⟩ := ⟨reference_wf, by decide⟩

/-- ShiftSucceedsExactlyWhenTheMagnitudeFits (O2: an overflow, and a larger amount; O1: a success). -/
theorem witness_overflow_and_success :
    Config.reference.Wf ∧ Record.Shaped Config.reference ⟨[1, 0, 0, 0], 1⟩ ∧
    Record.Valid Config.reference ⟨[1, 0, 0, 0], 1⟩ ∧ (shl Config.reference ⟨[1, 0, 0, 0], 1⟩ 256).1 = .overflow ∧
    256 ≤ 257 ∧ (shl Config.reference ⟨[1, 0, 0, 0], 1⟩ 255).1 = .success := ⟨reference_wf, by decide +kernel⟩

/-- TwoShiftsComposeToOne (P1). -/
theorem witness_composition :
    Config.reference.Wf ∧ Record.Shaped Config.reference ⟨[0x0123456789ABCDEF, 0, 0, 0], 1⟩ ∧
    Record.Valid Config.reference ⟨[0x0123456789ABCDEF, 0, 0, 0], 1⟩ ∧
    (shl Config.reference ⟨[0x0123456789ABCDEF, 0, 0, 0], 1⟩ (4 + 60)).1 = .success :=
  ⟨reference_wf, by decide +kernel⟩

/-- ShlGoesOnExactlyWithinTheContract: its three clauses. -/
theorem witness_contract_clauses :
    (isPopulated pairIdle.cfg 1 = true ∧ (record pairIdle 1).Valid pairIdle.cfg) ∧
    ((5 : Nat) ≠ 0 ∧ isPopulated pairIdle.cfg 5 = false) ∧
    (isPopulated (one ⟨[0, 0, 0, 0], 1⟩).cfg 1 = true ∧
      ¬ (record (one ⟨[0, 0, 0, 0], 1⟩) 1).Valid Config.reference) := by decide

/-- The statements on a valid record in case 5: ShiftWritesTheResultWords, ShiftMultipliesTheMagnitude,
RecordIsValidAfterEveryResponse, ShlIsThePureFunctionOnItsRecord, OverflowIsRejected… at its boundary, ShlFrame, AccessCounts…,
Sequence B's order and access sets (O17: `L + s = CAPBITS`, garbage words). -/
theorem witness_shifts :
    (one ⟨[0, 1, 0xAB, 0xCD], 2⟩).cfg.Wf ∧ isPopulated (one ⟨[0, 1, 0xAB, 0xCD], 2⟩).cfg 1 = true ∧
    (record (one ⟨[0, 1, 0xAB, 0xCD], 2⟩) 1).Valid Config.reference ∧ Shifts (one ⟨[0, 1, 0xAB, 0xCD], 2⟩) 1 191 ∧
    (record (one ⟨[0, 1, 0xAB, 0xCD], 2⟩) 1).bitlen Config.reference + 191 = 256 ∧
    ∃ t, exec (.shl 1 191) (one ⟨[0, 1, 0xAB, 0xCD], 2⟩) = .next t :=
  ⟨reference_wf, by decide +kernel, by decide +kernel, by decide +kernel, by decide +kernel, _, rfl⟩

/-- ZeroShiftLeavesTheRecord (S3) and ZeroValueAlwaysSucceeds (Z3, an amount above `CAPBITS`), SequenceBTouches… for the
zero value. -/
theorem witness_zero_shift_and_zero_value :
    (isPopulated (one ⟨[0x11, 0x22, 0xAA, 0xBB], 2⟩).cfg 1 = true ∧
      (record (one ⟨[0x11, 0x22, 0xAA, 0xBB], 2⟩) 1).Valid Config.reference) ∧
    isPopulated (one ⟨[0xDEADBEEF, 0x1234, F16, 7], 0⟩).cfg 1 = true ∧
    lenRead (one ⟨[0xDEADBEEF, 0x1234, F16, 7], 0⟩) 1 = 0 ∧ Config.reference.capBits < 257 := by decide

/-- OverflowIsRejectedExactlyAtTheBoundary, SequenceBTouchesTheAccessSets, its overflow clause (O16: one bit too many). -/
theorem witness_overflow :
    (one ⟨[0, 1, 0xAB, 0xCD], 2⟩).cfg.Wf ∧ 0 < lenRead (one ⟨[0, 1, 0xAB, 0xCD], 2⟩) 1 ∧
    (record (one ⟨[0, 1, 0xAB, 0xCD], 2⟩) 1).bitlen Config.reference + 192 = Config.reference.capBits + 1 :=
  ⟨reference_wf, by decide +kernel⟩

/-- ErrorsChangeOnlyThePhase, OverflowRepeats: a command that overflows. -/
theorem witness_overflow_response :
    ∃ t, exec (.shl 1 192) (one ⟨[0, 1, 0xAB, 0xCD], 2⟩) = .next t ∧
      t.responses = (one ⟨[0, 1, 0xAB, 0xCD], 2⟩).responses ++ [⟨0, .overflow⟩] ∧ Status.overflow ≠ .success :=
  ⟨_, rfl, rfl, by decide⟩

/-- OutcomeDependsOnTheRecordAlone: the same record beside different other records and responses. -/
theorem witness_same_record :
    (one ⟨[5, 0, 0, 0], 1⟩).cfg.Wf ∧
    record (one ⟨[5, 0, 0, 0], 1⟩) 1 =
      record { put (one ⟨[5, 0, 0, 0], 1⟩) 2 ⟨[9, 9, 0, 0], 2⟩ with responses := [⟨0, .overflow⟩] } 1 ∧
    ∃ t, exec (.shl 1 4) (one ⟨[5, 0, 0, 0], 1⟩) = .next t := ⟨reference_wf, by decide, _, rfl⟩

/-- SequenceALeavesTheSameRecord, SequenceBLeavesTheSameRecord: a shift with word move, bit shift and garbage (M1). -/
theorem witness_sequences :
    (one ⟨[F16, 1, 0x5555, 0x6666], 2⟩).cfg.Wf ∧
    ∃ t, exec (.shl 1 68) (one ⟨[F16, 1, 0x5555, 0x6666], 2⟩) = .next t := ⟨reference_wf, _, rfl⟩

/-- AcceptLatchesTheFields, PresentedCommandIsDecodedAndRun: `(1, 4)` presented to the idle engine 0. -/
theorem witness_present :
    pairIdle.cfg.Wf ∧ 0 < pairIdle.cfg.NENGINES ∧ pairIdle.phases.length = pairIdle.cfg.NENGINES ∧
    phaseOf pairIdle 0 = .idle ∧ 0x000000010000000000000004 < 2 ^ pairIdle.cfg.cmdBits ∧
    (match decode pairIdle.cfg 0x000000010000000000000004 with | .ok i => i == .shl 1 4 | .error _ => false) = true ∧
    owned pairIdle 1 = false ∧ Precondition pairIdle 1 :=
  ⟨pairCfg_wf, by decide, by decide, by decide, by decide, by decide, by decide, fun _ => by decide⟩

/-- CompleteStepRunsTheLatchedInstruction, WithoutEventsOnlyCommandsInFlightMove: engine 1 alone is busy. -/
theorem witness_lowest_busy :
    phaseOf { pair with phases := [.idle, .busy 2 1] } 1 = .busy 2 1 ∧
    (∀ e' < 1, phaseOf { pair with phases := [.idle, .busy 2 1] } e' = .idle) ∧
    (∀ p ∈ pairIdle.phases, p = .idle) ∧ pairIdle.agenda = [] := by decide

/-- PlacedCommandRunsNext. -/
theorem witness_placed :
    0 < State.reset.phases.length ∧
    (match decode State.reset.cfg ((2 ^ 64 + 4) % 2 ^ 96) with | .ok i => i == .shl 1 4 | .error _ => false) = true := by
  decide

/-- BusyEngineAcceptsNothing: engine 0 holds `(1, 4)` and is presented a null command. -/
theorem witness_busy_engine :
    0 < pair.cfg.NENGINES ∧ phaseOf pair 0 = .busy 1 4 ∧
    (match decode pair.cfg 5 with | .ok i => i == .shl 0 5 | .error _ => false) = true ∧ owned pair 0 = false := by
  decide

/-- TouchingAnOwnedRecordFaults: its clauses, at `len` and at the last word. -/
theorem witness_owned :
    Phase.busy 1 4 ∈ pair.phases ∧ isAddress pair.cfg ⟨1, .len⟩ = true ∧ isAddress pair.cfg ⟨1, .word 3⟩ = true ∧
    1 < pair.cfg.NENGINES ∧
    (match decode pair.cfg (2 ^ 64 + 1) with | .ok i => i == .shl 1 1 | .error _ => false) = true ∧
    step { pair with agenda := [.read ⟨1, .len⟩] } = .fault .concurrentAccess :=
  ⟨by decide, by decide, by decide, by decide, by decide, rfl⟩

/-- HostReadsBackWhatItWrote: the last word of an unowned record. -/
theorem witness_host_access : isAddress pairIdle.cfg ⟨2, .word 3⟩ = true ∧ owned pairIdle 2 = false := by decide

/-- ResetAbandonsCommandsInFlight: a record named, and one not named. -/
theorem witness_reset :
    Phase.busy 1 4 ∈ pair.phases ∧ isAddress pair.cfg ⟨1, .word 3⟩ = true ∧
    (∀ p ∈ pair.phases, p.holds 3 = false) ∧ ∀ p ∈ pairIdle.phases, p = .idle := by decide

/-- The invariant holds of a machine with two commands in flight: EveryStepKeepsTheInvariant,
StepsWithinTheContractGoOn, CompletesOfTwoEnginesCommute, CommandsInFlightAllComplete, and the statements about any step
that goes on. -/
theorem witness_invariant_with_commands_in_flight :
    Inv pair ∧ phaseOf pair 0 ≠ .idle ∧ phaseOf pair 1 ≠ .idle ∧ pair.agenda = [] ∧ ∃ t, step pair = .next t := by
  refine ⟨⟨pairCfg_wf, by decide, by decide, by decide +kernel, by decide, ?_, ?_, by decide⟩, by decide, by decide,
    rfl, _, rfl⟩
  · exact List.forall_mem_cons.2 ⟨⟨by decide, fun _ => by decide⟩,
      List.forall_mem_cons.2 ⟨⟨by decide, fun _ => by decide⟩, by simp⟩⟩
  · exact List.pairwise_cons.2 ⟨by simp [Phase.Disjoint], by simp⟩

/-- StepsWithinTheContractGoOn, with an event: `(1, 4)` presented to engine 0, and a read of the last word of record 2. -/
theorem witness_conforming_events :
    Inv { pairIdle with agenda := [.present 0 0x000000010000000000000004] } ∧
    Event.Conforms pairIdle (.present 0 0x000000010000000000000004) ∧
    Event.Conforms pairIdle (.read ⟨2, .word 3⟩) := by
  refine ⟨⟨pairCfg_wf, by decide, by decide, by decide +kernel, by decide, ?_, ?_, by decide⟩, ⟨by decide, ?_⟩, by decide⟩
  · exact List.forall_mem_cons.2 ⟨trivial, List.forall_mem_cons.2 ⟨trivial, by simp⟩⟩
  · exact List.pairwise_cons.2 ⟨by simp [Phase.Disjoint], by simp⟩
  · exact ⟨by decide, fun _ => by decide⟩

/-- OneResponsePerCompletedCommand, its converse: an engine that goes from `BUSY` to `IDLE` by COMPLETE, and by reset. -/
theorem witness_engine_becomes_idle :
    phaseOf pair 0 = .busy 1 4 ∧ (∃ t, step pair = .next t ∧ phaseOf t 0 = .idle) ∧
    ∃ t, step { pair with agenda := [.reset] } = .next t ∧ phaseOf t 0 = .idle :=
  ⟨by decide, ⟨_, rfl, rfl⟩, _, rfl, rfl⟩

/-- FieldsChangeOnlyForTheirOwnRecord: a host write that changes a field. -/
theorem witness_changed_field :
    ∃ t, step { pairIdle with agenda := [.write ⟨1, .word 0⟩ 7] } = .next t ∧
      memRead t.cfg t.storage ⟨1, .word 0⟩ ≠ memRead pairIdle.cfg pairIdle.storage ⟨1, .word 0⟩ :=
  ⟨_, rfl, by decide⟩

end Sys2Proof.Tests
end

