-- ==== Sys2Proof/Proofs/Scope.lean ====
section
/-! Proofs of 00_scope.md: the bit length of a number (R15), the magnitude and bit length of a value (R16), and the
reset state of the reference configuration (R12). -/

namespace Sys2Proof.Machine

/-! ### The bit length of a number -/

@[simp] theorem blen_zero : blen 0 = 0 := rfl

theorem blen_of_ne_zero {x : Nat} (hx : x ≠ 0) : blen x = Nat.log2 x + 1 := if_neg hx

/-- `blen x` counts the powers of two up to `x`; every bound on a bit length follows from this equivalence. -/
theorem lt_blen_iff {n x : Nat} : n < blen x ↔ 2 ^ n ≤ x := by
  obtain rfl | hx := eq_or_ne x 0
  · simp
  · rw [blen_of_ne_zero hx, Nat.lt_succ_iff, Nat.le_log2 hx]

theorem blen_le_iff {n x : Nat} : blen x ≤ n ↔ x < 2 ^ n := by
  rw [← not_lt, lt_blen_iff, not_le]

theorem blen_pos_iff {x : Nat} : 0 < blen x ↔ x ≠ 0 := by
  rw [lt_blen_iff, pow_zero, Nat.one_le_iff_ne_zero]

theorem blen_div_two_pow (x k : Nat) : blen (x / 2 ^ k) = blen x - k :=
  eq_of_forall_lt_iff fun n => by
    rw [lt_blen_iff, Nat.le_div_iff_mul_le (Nat.two_pow_pos k), ← pow_add, ← lt_blen_iff, Nat.lt_sub_iff_add_lt]

/-- The bit length is set by the part above bit `k` when that part is not zero. -/
theorem blen_add_mul_two_pow {a y k : Nat} (ha : a < 2 ^ k) (hy : y ≠ 0) : blen (a + y * 2 ^ k) = k + blen y := by
  have hdiv : (a + y * 2 ^ k) / 2 ^ k = y := by
    rw [Nat.add_mul_div_right _ _ (Nat.two_pow_pos k), Nat.div_eq_of_lt ha, Nat.zero_add]
  have hsub : blen y = blen (a + y * 2 ^ k) - k := by rw [← blen_div_two_pow, hdiv]
  have hpos := blen_pos_iff.2 hy
  omega

/-! ### The magnitude and the bit length of a value -/

theorem Record.Shaped.word_lt {c : Config} {v : Record} (h : v.Shaped c) (i : Nat) : v.word i < 2 ^ c.W := by
  obtain ⟨-, hword, -⟩ := h
  by_cases hi : i < v.words.length
  · rw [Record.word, List.getD_eq_getElem _ _ hi]
    exact hword _ (List.getElem_mem hi)
  · rw [Record.word, List.getD_eq_default _ _ (not_lt.1 hi)]
    exact Nat.two_pow_pos c.W

theorem Record.weightedSum_eq_sum (c : Config) (v : Record) (n : Nat) :
    v.weightedSum c n = ∑ i ∈ Finset.range n, v.word i * 2 ^ (c.W * i) := by
  induction n with
  | zero => rfl
  | succ n ih => rw [Finset.sum_range_succ, ← ih, Record.weightedSum]

theorem Record.weightedSum_lt {c : Config} {v : Record} (h : v.Shaped c) (n : Nat) :
    v.weightedSum c n < 2 ^ (c.W * n) := by
  induction n with
  | zero => simp [Record.weightedSum]
  | succ n ih =>
    calc v.weightedSum c n + v.word n * 2 ^ (c.W * n)
      _ < (v.word n + 1) * 2 ^ (c.W * n) := by rw [Nat.add_one_mul]; omega
      _ ≤ 2 ^ c.W * 2 ^ (c.W * n) := Nat.mul_le_mul_right _ (h.word_lt n)
      _ = 2 ^ (c.W * (n + 1)) := by rw [← pow_add, Nat.mul_succ, Nat.add_comm]

theorem Record.bitlen_of_len_eq_zero {c : Config} {v : Record} (h : v.len = 0) : v.bitlen c = 0 := if_pos h

theorem Record.bitlen_of_len_pos {c : Config} {v : Record} (h : 0 < v.len) :
    v.bitlen c = (v.len - 1) * c.W + blen (v.word (v.len - 1)) := if_neg h.ne'

theorem Record.magnitude_of_len_eq_zero {c : Config} {v : Record} (h : v.len = 0) : v.magnitude c = 0 := by
  rw [Record.magnitude, h, Record.weightedSum]

theorem Record.magnitude_of_len_pos {c : Config} {v : Record} (h : 0 < v.len) :
    v.magnitude c = v.weightedSum c (v.len - 1) + v.word (v.len - 1) * 2 ^ (c.W * (v.len - 1)) := by
  obtain ⟨n, hn⟩ := Nat.exists_eq_add_one.2 h
  rw [Record.magnitude, hn, Nat.add_sub_cancel, Record.weightedSum]

/-- The words below the top one stay below its weight, and the top word is not zero, so it alone sets the length. -/
theorem Record.bitlen_eq_blen_magnitude {c : Config} {v : Record} (hs : v.Shaped c) (hv : v.Valid c) :
    v.bitlen c = blen (v.magnitude c) := by
  obtain ⟨-, htop⟩ := hv
  obtain hlen | hlen := Nat.eq_zero_or_pos v.len
  · rw [Record.bitlen_of_len_eq_zero hlen, Record.magnitude_of_len_eq_zero hlen, blen_zero]
  · rw [Record.bitlen_of_len_pos hlen, Record.magnitude_of_len_pos hlen,
      blen_add_mul_two_pow (Record.weightedSum_lt hs _) (htop hlen), Nat.mul_comm]

/-! ### The reset state -/

theorem resetOf_phases (c : Config) : (State.resetOf c).phases = List.replicate c.NENGINES .idle := rfl

theorem isPopulated_iff_of_every {c : Config} (h : c.populated = .every) (r : Nat) :
    isPopulated c r = true ↔ 1 ≤ r ∧ r < 2 ^ c.REF_BITS := by
  simp [isPopulated, h]

/-- A field of an unwritten storage reads as its power-up value. -/
theorem memRead_nil (c : Config) (a : Addr) :
    memRead c [] a = trunc (fieldBits c a.field) (Config.powerUp a.ref a.field.rank) := rfl

end Sys2Proof.Machine

namespace Sys2Proof.Proofs

open Sys2Proof Sys2Proof.Machine

/-- Settles O6: both bounds and the uniqueness read off `lt_blen_iff` and `blen_le_iff`. -/
theorem bitLengthIsTheUniqueBound : Obligations.BitLengthIsTheUniqueBound := by
  refine ⟨blen_zero, by decide, fun x hx => ?_⟩
  have hpos : 1 ≤ blen x := blen_pos_iff.2 hx
  refine ⟨⟨hpos, lt_blen_iff.1 (Nat.sub_one_lt_of_lt hpos), blen_le_iff.1 le_rfl⟩, fun n hn hlo hhi => ?_⟩
  have hge : n - 1 < blen x := lt_blen_iff.2 hlo
  have hle : blen x ≤ n := blen_le_iff.2 hhi
  omega

/-- Settles O7, by the case of a zero `len` and the case of a top word that is not zero. -/
theorem bitlenIsTheBitLengthOfTheMagnitude : Obligations.BitlenIsTheBitLengthOfTheMagnitude :=
  fun c v _ hs hv => ⟨Record.weightedSum_eq_sum c v v.len, Record.bitlen_of_len_pos, Record.bitlen_of_len_eq_zero,
    Record.bitlen_eq_blen_magnitude hs hv⟩

/-- Settles O45: the reset state field by field. -/
theorem resetStateIsIdleAndUnwritten : Obligations.ResetStateIsIdleAndUnwritten := by
  refine ⟨rfl, rfl, fun p hp => ?_, ?_, rfl, fun r => ?_, memRead_nil _⟩
  · exact List.eq_of_mem_replicate (resetOf_phases Config.reference ▸ hp)
  · exact List.length_replicate
  · exact (isPopulated_iff_of_every rfl r).trans (and_congr_right fun _ => Nat.lt_iff_le_pred (Nat.two_pow_pos 32))

end Sys2Proof.Proofs
end

