-- ==== Sys2Proof/Proofs/State.lean ====
section
/-! Proofs of 10_state.md: what one step can do (R20, R28, R34), what reset leaves (R35, R36), the invariant of the
machine (R21, R24, R28, R40, R141), and what the insignificant words and the pending responses cannot influence
(R25, R31). -/

namespace Sys2Proof.Machine

/-! ### Phases and ownership -/

theorem phaseOf_eq_busy_iff {s : State} {e r n : Nat} :
    phaseOf s e = .busy r n ↔ s.phases[e]? = some (.busy r n) := by
  cases h : s.phases[e]? <;> simp [phaseOf, List.getD, h]

theorem lt_length_of_phaseOf_busy {s : State} {e r n : Nat} (h : phaseOf s e = .busy r n) : e < s.phases.length :=
  (List.getElem?_eq_some_iff.1 (phaseOf_eq_busy_iff.1 h)).1

theorem busy_mem_phases_iff {s : State} {r n : Nat} : .busy r n ∈ s.phases ↔ ∃ e, phaseOf s e = .busy r n := by
  simp [List.mem_iff_getElem?, phaseOf_eq_busy_iff]

theorem phaseOf_setPhase_self {s : State} {e : Nat} (h : e < s.phases.length) (p : Phase) :
    phaseOf (s.setPhase e p) e = p := by
  simp [phaseOf, List.getD, h]

/-- An engine that responds is `IDLE`, whether it is there or not. -/
theorem getD_set_idle_self (ps : List Phase) (e : Nat) : (ps.set e .idle).getD e .idle = .idle := by
  by_cases h : e < ps.length <;> simp [List.getD, h]

/-- The commands in flight once engine `e` is `IDLE` are those of the other engines. -/
theorem busy_mem_set_idle_iff {s : State} {e r n : Nat} :
    .busy r n ∈ s.phases.set e .idle ↔ ∃ e', e' ≠ e ∧ phaseOf s e' = .busy r n := by
  rw [List.mem_iff_getElem?]
  refine exists_congr fun e' => ?_
  rw [List.getElem?_set, phaseOf_eq_busy_iff]
  by_cases he : e = e'
  · simp [he]
  · simp [he, Ne.symm he]

/-- A record is free when it is the null one or no command in flight names it (R51). -/
theorem owned_eq_false_iff {s : State} {r : Nat} : owned s r = false ↔ r = 0 ∨ ∀ n, .busy r n ∉ s.phases := by
  simp only [owned, Bool.and_eq_false_iff, decide_eq_false_iff_not, not_not, List.any_eq_false]
  refine or_congr_right ⟨fun h n hn => h _ hn (by simp [Phase.holds]), fun h p hp hold => ?_⟩
  cases p with
  | idle => simp [Phase.holds] at hold
  | busy r' n =>
    obtain rfl : r' = r := by simpa [Phase.holds] using hold
    exact h n hp

/-! ### The operations of a step, run forwards -/

theorem complete_of_idle {s : State} {e : Nat} (h : phaseOf s e = .idle) : complete e s = .next s := by
  simp [complete, h]

theorem complete_of_busy {s : State} {e ref n : Nat} (h : phaseOf s e = .busy ref n) :
    complete e s = exec (.shl ref n) { s with active := e } := by
  simp [complete, h]

theorem exec_shl_next {ref n : Nat} {s t : State} :
    exec (.shl ref n) s = .next t ↔ Precondition s ref ∧ t = shlComplete ref n s := execShl_next

section present
variable {s : State} {e cmd ref n : Nat}

theorem present_of_idle (he : e < s.cfg.NENGINES) (hd : decode s.cfg cmd = .ok (.shl ref n))
    (ho : owned s ref = false) (hp : phaseOf s e = .idle) : present e cmd s = accept e (.shl ref n) s := by
  simp [present, he.not_ge, hd, ho, hp]

theorem present_of_busy (he : e < s.cfg.NENGINES) (hd : decode s.cfg cmd = .ok (.shl ref n))
    (ho : owned s ref = false) (hp : phaseOf s e ≠ .idle) :
    present e cmd s = complete e { s with agenda := .present e cmd :: s.agenda } := by
  cases hb : phaseOf s e with
  | idle => exact absurd hb hp
  | busy r k => simp [present, he.not_ge, hd, ho, hb]

end present

theorem step_of_agenda_nil {s : State} (h : s.agenda = []) : step s = progress s := by
  simp [step, h]

theorem step_of_agenda_cons {s : State} {ev : Event} {rest : List Event} (h : s.agenda = ev :: rest) :
    step s = perform ev { s with agenda := rest } := by
  simp [step, h]

theorem firstBusy_eq_none {s : State} (h : ∀ p ∈ s.phases, p = .idle) : firstBusy s = none := by
  rw [firstBusy, List.findIdx?_eq_none_iff]
  exact fun p hp => by simp [h p hp]

theorem firstBusy_eq_some {s : State} {e ref n : Nat} (he : phaseOf s e = .busy ref n)
    (hlow : ∀ e' < e, phaseOf s e' = .idle) : firstBusy s = some e := by
  obtain ⟨hlt, hbusy⟩ := List.getElem?_eq_some_iff.1 (phaseOf_eq_busy_iff.1 he)
  refine List.findIdx?_eq_some_iff_getElem.2 ⟨hlt, by simp [hbusy], fun e' hlt' => ?_⟩
  have hidle := hlow e' hlt'
  rw [phaseOf, List.getD_eq_getElem _ _ (hlt'.trans hlt)] at hidle
  simp [hidle]

/-! ### What a step can do -/

/-- The ways a step ends in a next state. `ag` is the agenda it leaves. -/
inductive Moved (s : State) : State → Prop where
  /-- No command to complete (R20). -/
  | stays (ag : List Event) : Moved s { s with agenda := ag }
  /-- A busy engine executes the command it holds (R28). -/
  | completes (ag : List Event) (e ref n : Nat) (hbusy : phaseOf s e = .busy ref n) (hpre : Precondition s ref) :
      Moved s (shlComplete ref n { s with agenda := ag, active := e })
  /-- An idle engine latches a command on a free record (R66). -/
  | accepts (e cmd ref n : Nat) (rest : List Event) (hag : s.agenda = .present e cmd :: rest)
      (hdecode : decode s.cfg cmd = .ok (.shl ref n)) (hfree : owned s ref = false) (hidle : phaseOf s e = .idle)
      (hpre : Precondition s ref) : Moved s ({ s with agenda := rest }.setPhase e (.busy ref n))
  /-- The host reads a field (R43). -/
  | reads (a : Addr) (rest : List Event) (hag : s.agenda = .read a :: rest) :
      Moved s { s with agenda := rest, readData := s.readData ++ [(a, memRead s.cfg s.storage a)] }
  /-- The host writes a field of a free record (R43, R51). -/
  | writes (a : Addr) (v : Nat) (rest : List Event) (hag : s.agenda = .write a v :: rest)
      (haddr : isAddress s.cfg a = true) (hfree : owned s a.ref = false) :
      Moved s ({ s with agenda := rest }.write a v)
  /-- The host takes a response (R140). -/
  | takes (rest : List Event) (hag : s.agenda = .take :: rest) : Moved s (takeResponse { s with agenda := rest })
  /-- Reset is pulled (R35, R36). -/
  | resets (rest : List Event) (hag : s.agenda = .reset :: rest) : Moved s (pullReset { s with agenda := rest })

theorem complete_moved {s t : State} {e : Nat} (ag : List Event) (h : complete e { s with agenda := ag } = .next t) :
    Moved s t := by
  obtain ⟨-, rfl⟩ | ⟨ref, n, hbusy, hpre, rfl⟩ := complete_next h
  · exact .stays ag
  · exact .completes ag e ref n hbusy hpre

theorem present_moved {s t : State} {e cmd : Nat} {rest : List Event} (hag : s.agenda = .present e cmd :: rest)
    (h : present e cmd { s with agenda := rest } = .next t) : Moved s t := by
  obtain ⟨-, ref, n, hdecode, hfree, ⟨hidle, hpre, rfl⟩ | ⟨-, hwait⟩⟩ := present_next h
  · exact .accepts e cmd ref n rest hag hdecode hfree hidle hpre
  · exact complete_moved _ hwait

theorem progress_moved {s t : State} (h : progress s = .next t) : Moved s t := by
  unfold progress at h
  cases hf : firstBusy s with
  | none =>
    obtain rfl : s = t := by simpa [hf] using h
    exact .stays s.agenda
  | some e => exact complete_moved s.agenda (by simpa [hf] using h)

/-- Every step is one of the seven moves. -/
theorem step_moved {s t : State} (h : step s = .next t) : Moved s t := by
  cases hag : s.agenda with
  | nil => exact progress_moved (step_of_agenda_nil hag ▸ h)
  | cons ev rest =>
    rw [step_of_agenda_cons hag] at h
    cases ev with
    | present e cmd => exact present_moved hag h
    | complete e => exact complete_moved rest h
    | read a =>
      obtain ⟨-, -, rfl⟩ := hostRead_next.1 h
      exact .reads a rest hag
    | write a v =>
      obtain ⟨haddr, hfree, rfl⟩ := hostWrite_next.1 h
      exact .writes a v rest hag haddr hfree
    | take =>
      cases h
      exact .takes rest hag
    | reset =>
      cases h
      exact .resets rest hag

/-! ### What SHL leaves unchanged -/

section shlComplete
variable (ref n : Nat) (s : State)

@[simp] theorem shlComplete_cfg : (shlComplete ref n s).cfg = s.cfg := by
  obtain ⟨hcfg, -⟩ := shlComplete_fields ref n s
  exact hcfg

@[simp] theorem shlComplete_phases : (shlComplete ref n s).phases = s.phases.set s.active .idle := by
  obtain ⟨-, hphases, -⟩ := shlComplete_fields ref n s
  exact hphases

@[simp] theorem shlComplete_active : (shlComplete ref n s).active = s.active := by
  obtain ⟨-, -, -, -, hactive, -⟩ := shlComplete_fields ref n s
  exact hactive

theorem shlComplete_responses : (shlComplete ref n s).responses =
    s.responses ++ [⟨s.active, (shlCase s.cfg ref n (record s ref)).status⟩] := by
  rw [shlComplete_eq]
  split_ifs
  · rw [storeShifted_eq]; rfl
  · rfl

theorem shlComplete_storage : (shlComplete ref n s).storage =
    if shlCase s.cfg ref n (record s ref) = .shifted then (storeShifted ref (record s ref) n s).storage
    else s.storage := by
  rw [shlComplete_eq]
  split_ifs <;> rfl

end shlComplete

/-- A field that SHL changes belongs to the record named, in case 5 (R46, R81). -/
theorem shifted_of_not_sameAt_shlComplete {ref n : Nat} {s : State} {a : Addr}
    (h : ¬ SameAt s (shlComplete ref n s) a) : shlCase s.cfg ref n (record s ref) = .shifted ∧ a.ref = ref := by
  rw [SameAt, shlComplete_cfg, shlComplete_storage] at h
  split_ifs at h with hcase
  · refine ⟨hcase, by_contra fun hne => h ?_⟩
    rw [memRead_storeShifted, if_neg hne]
  · exact absurd rfl h

/-! ### Reset -/

/-- What a reset abandons changes the storage and the count of free values only. -/
theorem abandon_eq (s : State) (p : Phase) :
    abandon s p = { s with storage := (abandon s p).storage, drawn := (abandon s p).drawn } := by
  obtain h | ⟨r, n, -, -, h⟩ := abandon_cases s p <;> rw [h]
  rw [abandonRecord_eq]

theorem foldl_abandon_eq (ps : List Phase) (s : State) :
    ps.foldl abandon s =
      { s with storage := (ps.foldl abandon s).storage, drawn := (ps.foldl abandon s).drawn } := by
  induction ps generalizing s with
  | nil => rfl
  | cons p ps ih => rw [List.foldl_cons, ih, abandon_eq]

@[simp] theorem foldl_abandon_cfg (ps : List Phase) (s : State) : (ps.foldl abandon s).cfg = s.cfg := by
  rw [foldl_abandon_eq]

section pullReset
variable (s : State)

@[simp] theorem pullReset_cfg : (pullReset s).cfg = s.cfg := foldl_abandon_cfg s.phases s

@[simp] theorem pullReset_phases : (pullReset s).phases = s.phases.map fun _ => .idle := rfl

@[simp] theorem pullReset_responses : (pullReset s).responses = [] := rfl

@[simp] theorem pullReset_storage : (pullReset s).storage = (s.phases.foldl abandon s).storage := rfl

@[simp] theorem pullReset_drawn : (pullReset s).drawn = (s.phases.foldl abandon s).drawn := rfl

@[simp] theorem pullReset_readData : (pullReset s).readData = s.readData := by
  simp only [pullReset]; rw [foldl_abandon_eq]

@[simp] theorem pullReset_agenda : (pullReset s).agenda = s.agenda := by
  simp only [pullReset]; rw [foldl_abandon_eq]

@[simp] theorem pullReset_active : (pullReset s).active = s.active := by
  simp only [pullReset]; rw [foldl_abandon_eq]

end pullReset

theorem abandonRecord_drawn (r : Nat) (s : State) : (abandonRecord r s).drawn = s.drawn + 1 + s.cfg.CAPACITY := rfl

theorem drawn_le_drawn_abandon (s : State) (p : Phase) : s.drawn ≤ (abandon s p).drawn := by
  obtain h | ⟨r, n, -, -, h⟩ := abandon_cases s p <;> rw [h]
  rw [abandonRecord_drawn]; omega

theorem drawn_le_drawn_foldl_abandon (ps : List Phase) (s : State) : s.drawn ≤ (ps.foldl abandon s).drawn := by
  induction ps generalizing s with
  | nil => exact le_rfl
  | cons p ps ih => exact (drawn_le_drawn_abandon s p).trans (ih _)

theorem foldl_abandon_of_idle {ps : List Phase} (s : State) (h : ∀ p ∈ ps, p = .idle) : ps.foldl abandon s = s := by
  induction ps with
  | nil => rfl
  | cons p ps ih =>
    obtain ⟨rfl, hps⟩ := List.forall_mem_cons.1 h
    exact ih hps

/-- A record no abandoned command names reads as before. -/
theorem memRead_foldl_abandon_of_not_mem {ps : List Phase} {s : State} {a : Addr}
    (h : ∀ n, .busy a.ref n ∉ ps) : memRead s.cfg (ps.foldl abandon s).storage a = memRead s.cfg s.storage a := by
  induction ps generalizing s with
  | nil => rfl
  | cons p ps ih =>
    have htail : ∀ n, .busy a.ref n ∉ ps := fun n hn => h n (List.mem_cons_of_mem p hn)
    rw [List.foldl_cons, ← abandon_cfg s p, ih htail, abandon_cfg]
    obtain hp | ⟨r, n, rfl, -, hp⟩ := abandon_cases s p <;> rw [hp]
    exact memRead_abandonRecord_of_ne s fun hr => h n (hr ▸ List.mem_cons_self)

/-- Every field of an abandoned record is one of the free values drawn for it (R36). -/
theorem exists_freeValue_abandonRecord {s : State} {r : Nat} {f : Field} (h : isAddress s.cfg ⟨r, f⟩ = true) :
    ∃ k, s.drawn ≤ k ∧ k < (abandonRecord r s).drawn ∧
      memRead s.cfg (abandonRecord r s).storage ⟨r, f⟩ = trunc (fieldBits s.cfg f) (Config.freeValue k) := by
  simp only [abandonRecord, foldl_wordWrite_eq, State.lenWrite_cfg, State.lenWrite_storage,
    memRead_foldl_wordWrite]
  cases f with
  | len => exact ⟨s.drawn, le_rfl, by omega, memRead_memWrite_self _ _ _ _⟩
  | word i =>
    have hi : i < s.cfg.CAPACITY := by simpa using (Bool.and_eq_true_iff.1 h).2
    exact ⟨s.drawn + 1 + i, by omega, by omega, by simp [hi, fieldBits]⟩

/-- The same when several commands are abandoned: the last one that names the record draws its fields. -/
theorem exists_freeValue_foldl_abandon {ps : List Phase} {s : State} {r n : Nat} {f : Field}
    (hmem : .busy r n ∈ ps) (h : isAddress s.cfg ⟨r, f⟩ = true) :
    ∃ k, s.drawn ≤ k ∧ k < (ps.foldl abandon s).drawn ∧
      memRead s.cfg (ps.foldl abandon s).storage ⟨r, f⟩ = trunc (fieldBits s.cfg f) (Config.freeValue k) := by
  induction ps generalizing s n with
  | nil => simp at hmem
  | cons p ps ih =>
    rw [List.foldl_cons]
    by_cases hlater : ∃ n', .busy r n' ∈ ps
    · obtain ⟨n', hn'⟩ := hlater
      obtain ⟨k, hlo, hhi, hval⟩ := ih (s := abandon s p) hn' (by rwa [abandon_cfg])
      rw [abandon_cfg] at hval
      exact ⟨k, (drawn_le_drawn_abandon s p).trans hlo, hhi, hval⟩
    · push Not at hlater
      obtain rfl : .busy r n = p := (List.mem_cons.1 hmem).resolve_right (hlater n)
      have hpop : isPopulated s.cfg r = true := (Bool.and_eq_true_iff.1 h).1
      have hab : abandon s (.busy r n) = abandonRecord r s := if_pos hpop
      obtain ⟨k, hlo, hhi, hval⟩ := exists_freeValue_abandonRecord h
      refine ⟨k, hlo, ?_, ?_⟩
      · rw [hab]
        exact hhi.trans_le (drawn_le_drawn_foldl_abandon ps _)
      · rw [← abandon_cfg s (.busy r n), memRead_foldl_abandon_of_not_mem hlater, abandon_cfg, hab, hval]

/-! ### The words a shift writes -/

/-- A shift that passes the overflow test stays within the record (R103 a). -/
theorem topIndex_le_capacity {c : Config} {v : Record} {n : Nat} (hv : v.Valid c) (hlen : 0 < v.len)
    (hfit : v.bitlen c + n ≤ c.capBits) : topIndex c v n ≤ c.CAPACITY := by
  obtain ⟨-, htop⟩ := hv
  have hpos := blen_pos_iff.2 (htop hlen)
  rw [Record.bitlen_of_len_pos hlen] at hfit
  have hlt : (v.len - 1 + n / c.W) * c.W < c.CAPACITY * c.W := by
    rw [Nat.add_mul]
    have hdiv := Nat.div_mul_le_self n c.W
    simp only [Config.capBits] at hfit
    omega
  have hle := Nat.lt_of_mul_lt_mul_right hlt
  simp only [topIndex, wordShift]
  omega

theorem writtenWords_le_capacity {c : Config} {v : Record} {n : Nat} (hv : v.Valid c) (hlen : 0 < v.len)
    (hfit : v.bitlen c + n ≤ c.capBits) : writtenWords c v n ≤ c.CAPACITY := by
  have htop := topIndex_le_capacity hv hlen hfit
  unfold writtenWords
  split_ifs <;> omega

theorem shifted_word (c : Config) (v : Record) (n j : Nat) :
    (shifted c v n).word j = if j < c.CAPACITY then newWord c v n j else 0 := by
  split_ifs with hj
  · simp [Record.word, shifted, hj]
  · simp [Record.word, shifted, not_lt.1 hj]

/-! ### Insignificant words -/

section SameValue
variable {c : Config} {v u : Record} (h : v.SameValue u)
include h

theorem Record.SameValue.bitlen_eq : u.bitlen c = v.bitlen c := by
  obtain ⟨hlen, hword⟩ := h
  unfold Record.bitlen
  rw [← hlen]
  split_ifs
  · rfl
  · rw [hword _ (by omega)]

theorem Record.SameValue.topIndex_eq (n : Nat) : topIndex c u n = topIndex c v n := by
  rw [topIndex, topIndex, h.1]

theorem Record.SameValue.carryIn_eq (bs : Nat) {k : Nat} (hk : k ≤ v.len) : carryIn c u bs k = carryIn c v bs k := by
  unfold carryIn
  split_ifs
  · rfl
  · rw [h.2 (k - 1) (by omega)]

theorem Record.SameValue.carryOut_eq (hpos : 0 < v.len) (bs : Nat) : carryOut c u bs = carryOut c v bs := by
  obtain ⟨hlen, hword⟩ := h
  rw [carryOut, carryOut, ← hlen, hword _ (by omega)]

theorem Record.SameValue.newLen_eq (hpos : 0 < v.len) (n : Nat) : newLen c u n = newLen c v n := by
  rw [newLen, newLen, h.topIndex_eq, h.carryOut_eq hpos]

/-- Below the new length a result word comes from significant words alone: the index `t` is below it only with a
carry-out, and then, within the record, the word there is the carry-out (R109, R112). -/
theorem Record.SameValue.newWord_eq (hpos : 0 < v.len) {n j : Nat} (hj : j < newLen c v n) (hcap : j < c.CAPACITY) :
    newWord c u n j = newWord c v n j := by
  simp only [newWord, h.topIndex_eq]
  split_ifs with hzero hmoved hcarry
  · rfl
  · have hsig : j - wordShift c n < v.len := by
      rw [topIndex] at hmoved
      omega
    rw [h.2 _ hsig, h.carryIn_eq _ hsig.le]
  · exact h.carryOut_eq hpos _
  · refine absurd ?_ hcarry
    rw [newLen] at hj
    split_ifs at hj with hout
    · have hbs : bitShift c n ≠ 0 := fun hb => hout (if_pos hb)
      exact ⟨by omega, by omega, hbs⟩
    · omega

theorem Record.SameValue.shifted (hpos : 0 < v.len) (n : Nat) : (shifted c v n).SameValue (shifted c u n) := by
  refine ⟨(h.newLen_eq hpos n).symm, fun j hj => ?_⟩
  rw [shifted_word, shifted_word]
  split_ifs with hcap
  · exact (h.newWord_eq hpos hj hcap).symm
  · rfl

/-- The outcome depends on the value alone (R25, R26). -/
theorem Record.SameValue.shl (n : Nat) : (shl c v n).1 = (shl c u n).1 ∧ (shl c v n).2.SameValue (shl c u n).2 := by
  unfold Machine.shl
  rw [← h.1, h.bitlen_eq]
  split_ifs with hn hlen hovf
  · exact ⟨rfl, h⟩
  · exact ⟨rfl, h⟩
  · exact ⟨rfl, h⟩
  · exact ⟨rfl, h.shifted (Nat.pos_of_ne_zero hlen) n⟩

end SameValue

/-! ### Pending responses -/

/-- The outcome `r` is a next state that agrees with `t` in all but the responses. -/
def LikewiseButResponses (r : Result) (t : State) : Prop :=
  ∃ t', r = .next t' ∧ { t' with responses := t.responses } = t

theorem record_with_responses (s : State) (rs : List Response) (r : Nat) :
    record { s with responses := rs } r = record s r := rfl

theorem storeShifted_with_responses (ref : Nat) (v : Record) (n : Nat) (s : State) (rs : List Response) :
    storeShifted ref v n { s with responses := rs } = { storeShifted ref v n s with responses := rs } := by
  simp only [storeShifted, foldl_wordWrite_eq]
  rfl

theorem shlComplete_with_responses (ref n : Nat) (s : State) (rs : List Response) :
    { shlComplete ref n { s with responses := rs } with responses := (shlComplete ref n s).responses } =
      shlComplete ref n s := by
  simp only [shlComplete_eq, record_with_responses, storeShifted_with_responses]
  split_ifs <;> rfl

theorem abandon_with_responses (s : State) (p : Phase) (rs : List Response) :
    abandon { s with responses := rs } p = { abandon s p with responses := rs } := by
  cases p with
  | idle => rfl
  | busy r n =>
    simp only [abandon]
    split_ifs
    · simp only [abandonRecord, foldl_wordWrite_eq]
      rfl
    · rfl

theorem foldl_abandon_with_responses (ps : List Phase) (s : State) (rs : List Response) :
    ps.foldl abandon { s with responses := rs } = { ps.foldl abandon s with responses := rs } := by
  induction ps generalizing s with
  | nil => rfl
  | cons p ps ih =>
    rw [List.foldl_cons, abandon_with_responses, ih, List.foldl_cons]

theorem pullReset_with_responses (s : State) (rs : List Response) :
    pullReset { s with responses := rs } = pullReset s := by
  simp only [pullReset, foldl_abandon_with_responses]

theorem complete_likewise {e : Nat} {s t : State} (rs : List Response) (h : complete e s = .next t) :
    LikewiseButResponses (complete e { s with responses := rs }) t := by
  obtain ⟨hidle, rfl⟩ | ⟨ref, n, hbusy, hpre, rfl⟩ := complete_next h
  · exact ⟨_, complete_of_idle hidle, rfl⟩
  · exact ⟨_, (complete_of_busy (s := { s with responses := rs }) hbusy).trans (exec_shl_next.2 ⟨hpre, rfl⟩),
      shlComplete_with_responses ref n { s with active := e } rs⟩

theorem present_likewise {e cmd : Nat} {s t : State} (rs : List Response) (h : present e cmd s = .next t) :
    LikewiseButResponses (present e cmd { s with responses := rs }) t := by
  obtain ⟨he, ref, n, hdecode, hfree, ⟨hidle, hpre, rfl⟩ | ⟨hbusy, hwait⟩⟩ := present_next h
  · exact ⟨_, (present_of_idle (s := { s with responses := rs }) he hdecode hfree hidle).trans
      (accept_next.2 ⟨hpre, rfl⟩), rfl⟩
  · rw [present_of_busy (s := { s with responses := rs }) he hdecode hfree hbusy]
    exact complete_likewise rs hwait

theorem perform_likewise {ev : Event} {s t : State} (rs : List Response) (h : perform ev s = .next t) :
    LikewiseButResponses (perform ev { s with responses := rs }) t := by
  cases ev with
  | present e cmd => exact present_likewise rs h
  | complete e => exact complete_likewise rs h
  | read a =>
    obtain ⟨haddr, hfree, rfl⟩ := hostRead_next.1 h
    exact ⟨_, hostRead_next.2 ⟨haddr, hfree, rfl⟩, rfl⟩
  | write a v =>
    obtain ⟨haddr, hfree, rfl⟩ := hostWrite_next.1 h
    exact ⟨_, hostWrite_next.2 ⟨haddr, hfree, rfl⟩, rfl⟩
  | take =>
    cases h
    exact ⟨_, rfl, rfl⟩
  | reset =>
    cases h
    exact ⟨pullReset s, by rw [perform, pullReset_with_responses], rfl⟩

theorem progress_likewise {s t : State} (rs : List Response) (h : progress s = .next t) :
    LikewiseButResponses (progress { s with responses := rs }) t := by
  have hfirst : firstBusy { s with responses := rs } = firstBusy s := rfl
  unfold progress at h ⊢
  rw [hfirst]
  cases hf : firstBusy s with
  | none =>
    obtain rfl : s = t := by simpa [hf] using h
    exact ⟨_, rfl, rfl⟩
  | some e => exact complete_likewise rs (by simpa [hf] using h)

/-! ### The storage part of the invariant -/

/-- What `Inv` says of the storage: canonical, within the address space, and every field within its width. -/
structure StorageInv (c : Config) (m : Memory) : Prop where
  canonical : m.wf
  addresses : ∀ x ∈ m, isAddress c x.1 = true
  widths : ∀ x ∈ m, IsWord (fieldBits c x.1.field) x.2

theorem isAddress_len {c : Config} {r : Nat} (h : isPopulated c r = true) : isAddress c ⟨r, .len⟩ = true := by
  simp [isAddress, h]

theorem isAddress_word {c : Config} {r i : Nat} (h : isPopulated c r = true) (hi : i < c.CAPACITY) :
    isAddress c ⟨r, .word i⟩ = true := by
  simp [isAddress, h, hi]

theorem StorageInv.memWrite {c : Config} {m : Memory} (h : StorageInv c m) {a : Addr} (ha : isAddress c a = true)
    (v : Nat) : StorageInv c (memWrite c m a v) where
  canonical := memWrite_wf c h.canonical a v
  addresses x hx := by
    obtain rfl | hx := Memory.mem_insert hx
    · exact ha
    · exact h.addresses x hx
  widths x hx := by
    obtain rfl | hx := Memory.mem_insert hx
    · exact trunc_lt _ v
    · exact h.widths x hx

theorem StorageInv.foldl_wordWrite {c : Config} {m : Memory} {r : Nat} {js : List Nat} (f : Nat → Nat)
    (h : StorageInv c m) (hr : isPopulated c r = true) (hjs : ∀ j ∈ js, j < c.CAPACITY) :
    StorageInv c (js.foldl (fun m j => Machine.memWrite c m ⟨r, .word j⟩ (f j)) m) := by
  induction js generalizing m with
  | nil => exact h
  | cons j js ih =>
    obtain ⟨hj, hjs⟩ := List.forall_mem_cons.1 hjs
    exact ih (h.memWrite (isAddress_word hr hj) _) hjs

theorem StorageInv.storeShifted {s : State} {ref n : Nat} {v : Record} (h : StorageInv s.cfg s.storage)
    (hr : isPopulated s.cfg ref = true) (hw : writtenWords s.cfg v n ≤ s.cfg.CAPACITY) :
    StorageInv s.cfg (storeShifted ref v n s).storage := by
  simp only [Machine.storeShifted, foldl_wordWrite_eq, State.lenWrite_storage]
  refine (h.foldl_wordWrite _ hr fun j hj => ?_).memWrite (isAddress_len hr) _
  have hlt : j < writtenWords s.cfg v n := by simpa [writtenIndices] using hj
  exact hlt.trans_le hw

theorem StorageInv.abandonRecord {s : State} {r : Nat} (h : StorageInv s.cfg s.storage)
    (hr : isPopulated s.cfg r = true) : StorageInv s.cfg (abandonRecord r s).storage := by
  simp only [Machine.abandonRecord, foldl_wordWrite_eq, State.lenWrite_cfg, State.lenWrite_storage]
  exact (h.memWrite (isAddress_len hr) _).foldl_wordWrite _ hr fun j hj => List.mem_range.1 hj

theorem StorageInv.foldl_abandon {s : State} (ps : List Phase) (h : StorageInv s.cfg s.storage) :
    StorageInv s.cfg (ps.foldl abandon s).storage := by
  induction ps generalizing s with
  | nil => exact h
  | cons p ps ih =>
    rw [List.foldl_cons, ← abandon_cfg s p]
    refine ih ?_
    rw [abandon_cfg]
    obtain hp | ⟨r, n, -, hr, hp⟩ := abandon_cases s p <;> rw [hp]
    · exact h
    · exact h.abandonRecord hr

/-- SHL within its precondition keeps the storage in order: in case 5 it writes words of the record only. -/
theorem StorageInv.shlComplete {s : State} {ref n : Nat} (h : StorageInv s.cfg s.storage)
    (hpre : Precondition s ref) : StorageInv s.cfg (shlComplete ref n s).storage := by
  rw [shlComplete_storage]
  split_ifs with hcase
  · obtain ⟨hne, -, hlen, hfit⟩ := shlCase_eq_shifted.1 hcase
    obtain ⟨hpop, hvalid⟩ := hpre hne
    exact h.storeShifted hpop (writtenWords_le_capacity hvalid hlen hfit)
  · exact h

/-! ### The commands in flight -/

/-- Both fields of a decoded command word fit their widths (R60). -/
theorem wellFormed_of_decode {c : Config} {cmd : Nat} {i : Instr} (hc : c.Wf) (h : decode c cmd = .ok i) :
    WellFormed c i = true := by
  obtain ⟨-, -, -, href, hsa, -, -⟩ := hc
  unfold decode at h
  split_ifs at h
  cases h
  have href' : c.REF_BITS + c.SA_BITS - 1 + 1 - c.SA_BITS = c.REF_BITS := by omega
  have hsa' : c.SA_BITS - 1 + 1 - 0 = c.SA_BITS := by omega
  simp [WellFormed, bits, href', hsa', Nat.mod_lt]

theorem Phase.Disjoint.symm {p q : Phase} (h : Phase.Disjoint p q) : Phase.Disjoint q p := by
  cases p with
  | idle => cases q <;> trivial
  | busy r n =>
    cases q with
    | idle => trivial
    | busy r' n' =>
      simp only [Phase.Disjoint] at h ⊢
      omega

/-- Replacing one phase keeps the commands in flight apart, if the new one is apart from all of them. -/
theorem pairwise_disjoint_set {ps : List Phase} {p : Phase} (h : ps.Pairwise Phase.Disjoint)
    (hp : ∀ q ∈ ps, Phase.Disjoint p q) (e : Nat) : (ps.set e p).Pairwise Phase.Disjoint := by
  induction ps generalizing e with
  | nil => simp
  | cons q ps ih =>
    obtain ⟨hq, hps⟩ := List.pairwise_cons.1 h
    obtain ⟨hpq, hpps⟩ := List.forall_mem_cons.1 hp
    cases e with
    | zero => exact List.pairwise_cons.2 ⟨hpps, hps⟩
    | succ e =>
      refine List.pairwise_cons.2 ⟨fun x hx => ?_, ih hps hpps e⟩
      obtain hx | rfl := List.mem_or_eq_of_mem_set hx
      · exact hq x hx
      · exact hpq.symm

/-- A command on a free record is apart from every command in flight. -/
theorem disjoint_of_not_owned {s : State} {ref n : Nat} (h : owned s ref = false) :
    ∀ q ∈ s.phases, Phase.Disjoint (.busy ref n) q := by
  intro q hq
  cases q with
  | idle => trivial
  | busy r k =>
    refine (owned_eq_false_iff.1 h).imp_right fun hfree heq => hfree k ?_
    rwa [heq]

theorem record_eq_of_sameAt {s t : State} {r : Nat} (hcfg : t.cfg = s.cfg) (h : ∀ f, SameAt s t ⟨r, f⟩) :
    record t r = record s r := by
  simp only [SameAt, hcfg] at h
  rw [record, record, hcfg]
  exact recordOf_congr h

/-- A command in flight stays within the contract while the record it names reads the same. -/
theorem Phase.Ok.of_sameAt {s t : State} {p : Phase} (h : Phase.Ok s p) (hcfg : t.cfg = s.cfg)
    (hsame : ∀ r n, p = .busy r n → r ≠ 0 → ∀ f, SameAt s t ⟨r, f⟩) : Phase.Ok t p := by
  cases p with
  | idle => trivial
  | busy r n =>
    obtain ⟨hwf, hpre⟩ := h
    refine ⟨hcfg ▸ hwf, fun hr => ?_⟩
    obtain ⟨hpop, hvalid⟩ := hpre hr
    have hrec : record t r = record s r := record_eq_of_sameAt hcfg (hsame r n rfl hr)
    exact ⟨hcfg ▸ hpop, by rwa [hrec, hcfg]⟩

namespace Inv
variable {s : State}

theorem storageInv (h : Inv s) : StorageInv s.cfg s.storage := ⟨h.canonical, h.addresses, h.widths⟩

/-- `Inv` looks at no input, no response and no count, and at `active` for its range only. -/
theorem of_fields_eq {t : State} (h : Inv s) (hcfg : t.cfg = s.cfg) (hphases : t.phases = s.phases)
    (hstorage : t.storage = s.storage) (hactive : t.active < s.cfg.NENGINES) : Inv t := by
  have hsame : ∀ a, SameAt s t a := fun a => by rw [SameAt, hcfg, hstorage]
  exact
    { config := hcfg ▸ h.config
      canonical := hstorage ▸ h.canonical
      addresses := by rw [hcfg, hstorage]; exact h.addresses
      widths := by rw [hcfg, hstorage]; exact h.widths
      engines := by rw [hcfg, hphases]; exact h.engines
      inFlight := fun p hp => (h.inFlight p (hphases ▸ hp)).of_sameAt hcfg fun _ _ _ _ _ => hsame _
      exclusive := hphases ▸ h.exclusive
      activeEngine := hcfg ▸ hactive }

/-- Two engines with commands in flight name distinct records, the null one apart (R141). -/
theorem ref_ne (h : Inv s) {e e' r r' n n' : Nat} (hne : e ≠ e') (he : phaseOf s e = .busy r n)
    (he' : phaseOf s e' = .busy r' n') (hr : r ≠ 0) : r ≠ r' := by
  obtain ⟨hlt, hget⟩ := List.getElem?_eq_some_iff.1 (phaseOf_eq_busy_iff.1 he)
  obtain ⟨hlt', hget'⟩ := List.getElem?_eq_some_iff.1 (phaseOf_eq_busy_iff.1 he')
  have hpair := List.pairwise_iff_getElem.1 h.exclusive
  have hdisj : Phase.Disjoint (.busy r n) (.busy r' n') := by
    rw [← hget, ← hget']
    obtain hlo | hhi := Nat.lt_or_gt_of_ne hne
    · exact hpair e e' hlt hlt' hlo
    · exact (hpair e' e hlt' hlt hhi).symm
  exact hdisj.resolve_left hr

/-- ACCEPT of a command within the contract, on a free record. -/
theorem setPhase_busy (h : Inv s) {e ref n : Nat} (hwf : WellFormed s.cfg (.shl ref n) = true)
    (hpre : Precondition s ref) (hfree : owned s ref = false) : Inv (s.setPhase e (.busy ref n)) where
  config := h.config
  canonical := h.canonical
  addresses := h.addresses
  widths := h.widths
  engines := by simpa using h.engines
  inFlight p hp := by
    obtain hp | rfl := List.mem_or_eq_of_mem_set hp
    · exact (h.inFlight p hp).of_sameAt rfl fun _ _ _ _ _ => rfl
    · exact ⟨hwf, hpre⟩
  exclusive := pairwise_disjoint_set h.exclusive (disjoint_of_not_owned hfree) e
  activeEngine := h.activeEngine

/-- A host write to a free record. -/
theorem write (h : Inv s) {a : Addr} (v : Nat) (haddr : isAddress s.cfg a = true) (hfree : owned s a.ref = false) :
    Inv (s.write a v) :=
  have hst := h.storageInv.memWrite haddr v
  { config := h.config
    canonical := hst.canonical
    addresses := hst.addresses
    widths := hst.widths
    engines := h.engines
    inFlight := fun p hp => (h.inFlight p hp).of_sameAt rfl fun r n hrn hr f =>
      memRead_memWrite_of_ne _ _ v fun ha => by
        subst ha hrn
        exact (owned_eq_false_iff.1 hfree).elim hr fun hnone => hnone n hp
    exclusive := h.exclusive
    activeEngine := h.activeEngine }

/-- COMPLETE: the other commands in flight name other records, and SHL touches its own record only. -/
theorem shlComplete (h : Inv s) {ref n : Nat} (hbusy : phaseOf s s.active = .busy ref n) :
    Inv (shlComplete ref n s) :=
  have hpre : Precondition s ref := (h.inFlight _ (busy_mem_phases_iff.2 ⟨_, hbusy⟩)).2
  have hst := h.storageInv.shlComplete (n := n) hpre
  { config := by simpa using h.config
    canonical := hst.canonical
    addresses := by simpa using hst.addresses
    widths := by simpa using hst.widths
    engines := by simpa using h.engines
    inFlight := fun p hp => by
      cases p with
      | idle => trivial
      | busy r k =>
        rw [shlComplete_phases] at hp
        obtain ⟨e, hne, he⟩ := busy_mem_set_idle_iff.1 hp
        refine (h.inFlight _ (busy_mem_phases_iff.2 ⟨e, he⟩)).of_sameAt (shlComplete_cfg ref n s) ?_
        rintro _ _ ⟨⟩ hr f
        by_contra hchanged
        exact h.ref_ne hne he hbusy hr (shifted_of_not_sameAt_shlComplete hchanged).2
    exclusive := by
      rw [shlComplete_phases]
      exact pairwise_disjoint_set h.exclusive (fun _ _ => trivial) _
    activeEngine := by simpa using h.activeEngine }

/-- Reset leaves no command in flight. -/
theorem pullReset (h : Inv s) : Inv (pullReset s) :=
  have hst := h.storageInv.foldl_abandon s.phases
  have hidle : ∀ p ∈ (Machine.pullReset s).phases, p = .idle := fun p hp => by
    obtain ⟨_, -, rfl⟩ := List.mem_map.1 hp
    rfl
  { config := by simpa using h.config
    canonical := hst.canonical
    addresses := by simpa using hst.addresses
    widths := by simpa using hst.widths
    engines := by simpa using h.engines
    inFlight := fun p hp => by
      rw [hidle p hp]
      trivial
    exclusive := List.pairwise_of_forall_mem_list fun p hp q _ => by
      rw [hidle p hp]
      trivial
    activeEngine := by simpa using h.activeEngine }

/-- Each of the seven moves keeps the invariant. -/
theorem of_moved {t : State} (h : Inv s) (hmove : Moved s t) : Inv t := by
  have hrest : ∀ ag, Inv { s with agenda := ag } := fun ag => h.of_fields_eq rfl rfl rfl h.activeEngine
  cases hmove with
  | stays ag => exact hrest ag
  | completes ag e ref n hbusy hpre =>
    have he : e < s.cfg.NENGINES := h.engines ▸ lt_length_of_phaseOf_busy hbusy
    have hactive : Inv { s with agenda := ag, active := e } := h.of_fields_eq rfl rfl rfl he
    exact hactive.shlComplete hbusy
  | accepts e cmd ref n rest hag hdecode hfree hidle hpre =>
    exact (hrest rest).setPhase_busy (wellFormed_of_decode h.config hdecode) hpre hfree
  | reads a rest hag => exact h.of_fields_eq rfl rfl rfl h.activeEngine
  | writes a v rest hag haddr hfree => exact (hrest rest).write v haddr hfree
  | takes rest hag => exact h.of_fields_eq rfl rfl rfl h.activeEngine
  | resets rest hag => exact (hrest rest).pullReset

/-- A machine of any configuration within R5 to R11 meets the invariant right after reset. -/
theorem resetOf {c : Config} (hc : c.Wf) : Inv (State.resetOf c) where
  config := hc
  canonical := resetOf_wf c
  addresses _ hx := absurd hx List.not_mem_nil
  widths _ hx := absurd hx List.not_mem_nil
  engines := List.length_replicate
  inFlight p hp := by
    rw [List.eq_of_mem_replicate hp]
    trivial
  exclusive := List.pairwise_replicate.2 (.inr trivial)
  activeEngine := by
    obtain ⟨-, -, -, -, -, hengines, -⟩ := hc
    exact hengines

end Inv

/-- The reference configuration is within R5 to R11 (R12). -/
theorem config_reference_wf : Config.reference.Wf :=
  ⟨by decide, by decide, by decide, by decide, by decide, by decide, trivial⟩

end Sys2Proof.Machine

namespace Sys2Proof.Proofs

open Sys2Proof Sys2Proof.Machine

/-- Settles O47, move by move: what a move changes belongs to no other command in flight. -/
theorem everyStepKeepsTheInvariant : Obligations.EveryStepKeepsTheInvariant :=
  fun _ _ h hstep => h.of_moved (step_moved hstep)

/-- Settles O46, as the reference case of any configuration. -/
theorem resetMeetsTheInvariant : Obligations.ResetMeetsTheInvariant := Inv.resetOf config_reference_wf

/-- Settles O15: each branch of `shl` reads the length and the significant words alone. -/
theorem insignificantWordsHaveNoInfluence : Obligations.InsignificantWordsHaveNoInfluence :=
  fun _ _ _ n _ _ _ _ h => h.shl n

/-- Settles O44, by induction on the phases that reset goes through. -/
theorem resetAbandonsCommandsInFlight : Obligations.ResetAbandonsCommandsInFlight := by
  intro s rest hag
  refine ⟨pullReset { s with agenda := rest }, step_of_agenda_cons hag, rfl, rfl, pullReset_cfg _,
    pullReset_agenda _, pullReset_readData _, pullReset_active _, fun a hfree => ?_, fun r n f hmem haddr => ?_,
    fun hidle => ?_⟩
  · rw [SameAt, pullReset_cfg]
    exact memRead_foldl_abandon_of_not_mem hfree
  · rw [pullReset_cfg]
    exact exists_freeValue_foldl_abandon (s := { s with agenda := rest }) hmem haddr
  · rw [pullReset_storage, pullReset_drawn, foldl_abandon_of_idle _ hidle]
    exact ⟨rfl, rfl⟩

/-- Settles O51, move by move. -/
theorem parametersNeverChange : Obligations.ParametersNeverChange := by
  intro s t hstep
  cases step_moved hstep with
  | stays ag => exact ⟨rfl, rfl⟩
  | completes ag e ref n hbusy hpre => simp
  | accepts e cmd ref n rest hag hdecode hfree hidle hpre => simp
  | reads a rest hag => exact ⟨rfl, rfl⟩
  | writes a v rest hag haddr hfree => exact ⟨rfl, rfl⟩
  | takes rest hag => exact ⟨rfl, rfl⟩
  | resets rest hag => simp

/-- Settles O52: no operation of a step looks at the responses it adds to. -/
theorem pendingResponsesInfluenceNothing : Obligations.PendingResponsesInfluenceNothing := by
  intro s t rs hstep
  cases hag : s.agenda with
  | nil =>
    have hother : step { s with responses := rs } = progress { s with responses := rs } := step_of_agenda_nil hag
    rw [← hag, hother]
    exact progress_likewise rs (step_of_agenda_nil hag ▸ hstep)
  | cons ev rest =>
    have hother : step { s with responses := rs } = perform ev { s with responses := rs, agenda := rest } :=
      step_of_agenda_cons hag
    rw [← hag, hother]
    exact perform_likewise rs (step_of_agenda_cons hag ▸ hstep)

/-- Settles O54, move by move: three of the seven write to the storage. -/
theorem fieldsChangeOnlyForTheirOwnRecord : Obligations.FieldsChangeOnlyForTheirOwnRecord := by
  intro s t a hstep hchanged
  cases step_moved hstep with
  | stays ag => exact absurd rfl hchanged
  | completes ag e ref n hbusy hpre =>
    obtain ⟨hcase, rfl⟩ := shifted_of_not_sameAt_shlComplete (s := { s with agenda := ag, active := e }) hchanged
    refine .inr (.inr ⟨e, n, hbusy, ?_, ?_⟩)
    · rw [phaseOf, shlComplete_phases]
      exact getD_set_idle_self s.phases e
    · rw [shlComplete_responses, hcase]
      rfl
  | accepts e cmd ref n rest hag hdecode hfree hidle hpre => exact absurd rfl hchanged
  | reads b rest hag => exact absurd rfl hchanged
  | writes b v rest hag haddr hfree =>
    obtain rfl : a = b := by_contra fun hne => hchanged (memRead_memWrite_of_ne _ _ v hne)
    exact .inl ⟨v, rest, hag⟩
  | takes rest hag => exact absurd rfl hchanged
  | resets rest hag =>
    have hnamed : ∃ n, .busy a.ref n ∈ s.phases := by
      by_contra hnone
      push Not at hnone
      refine hchanged ?_
      rw [SameAt, pullReset_cfg]
      exact memRead_foldl_abandon_of_not_mem hnone
    obtain ⟨n, hn⟩ := hnamed
    exact .inr (.inl ⟨n, rest, hag, hn⟩)

/-- Settles O37. -/
theorem completeStepRunsTheLatchedInstruction : Obligations.CompleteStepRunsTheLatchedInstruction :=
  fun _ _ _ _ _ hag hbusy => (step_of_agenda_cons hag).trans (complete_of_busy hbusy)

/-- Settles O38: the first step is ACCEPT, the second the COMPLETE of the phase it latched. -/
theorem presentedCommandIsDecodedAndRun : Obligations.PresentedCommandIsDecodedAndRun := by
  intro s e cmd ref n rest hag he hlen hidle hdecode hfree hpre
  refine ⟨{ s with agenda := .complete e :: rest, phases := s.phases.set e (.busy ref n) }, ?_, ?_⟩
  · rw [step_of_agenda_cons hag]
    exact (present_of_idle (s := { s with agenda := .complete e :: rest }) he hdecode hfree hidle).trans
      (accept_next.2 ⟨hpre, rfl⟩)
  · exact completeStepRunsTheLatchedInstruction _ e ref n rest rfl (phaseOf_setPhase_self (hlen ▸ he) _)

/-- Settles O39: `withFetchWord` latches the decoded command in engine 0, whose COMPLETE is next. -/
theorem placedCommandRunsNext : Obligations.PlacedCommandRunsNext := by
  intro s nbits w ref n hengine hdecode
  have hplaced : s.withFetchWord nbits w = { s.setPhase 0 (.busy ref n) with agenda := .complete 0 :: s.agenda } := by
    simp [State.withFetchWord, placeCommand, hdecode]
  rw [hplaced]
  exact completeStepRunsTheLatchedInstruction _ 0 ref n s.agenda rfl (phaseOf_setPhase_self hengine _)

/-- Settles O40, by what `firstBusy` finds. -/
theorem withoutEventsOnlyCommandsInFlightMove : Obligations.WithoutEventsOnlyCommandsInFlightMove := by
  intro s hag
  rw [step_of_agenda_nil hag, progress]
  refine ⟨fun hidle => ?_, fun e ref n hbusy hlow => ?_⟩
  · rw [firstBusy_eq_none hidle]
  · rw [firstBusy_eq_some hbusy hlow]
    exact complete_of_busy hbusy

/-- Settles O41: the presentation goes back on the agenda, and the engine completes. -/
theorem busyEngineAcceptsNothing : Obligations.BusyEngineAcceptsNothing := by
  intro s e cmd ref n ref' n' rest hag he hbusy hdecode hfree
  have hwait : step s = complete e { s with agenda := .present e cmd :: rest } :=
    (step_of_agenda_cons hag).trans (present_of_busy he hdecode hfree fun hidle => by cases hidle.symm.trans hbusy)
  rw [hwait, ← hag]
  exact complete_of_busy hbusy

end Sys2Proof.Proofs
end

