-- ==== Sys2Proof/Proofs/Memory.lean ====
section
/-! Proofs of 20_memory.md: the frame of SHL (R46), the accesses of reference sequence B (R46, R47), host accesses
(R43, R48), ownership (R51), and the COMPLETE steps of two engines (R52). -/

namespace Sys2Proof.Machine

/-! ### The frame of SHL -/

theorem phaseOf_set_of_ne {s t : State} {e e' : Nat} {p : Phase} (h : t.phases = s.phases.set e p) (hne : e' ≠ e) :
    phaseOf t e' = phaseOf s e' := by
  rw [phaseOf, phaseOf, h, List.getD, List.getElem?_set_ne hne.symm, List.getD]

theorem phaseOf_shlComplete_of_ne (ref n : Nat) {s : State} {e : Nat} (h : e ≠ s.active) :
    phaseOf (shlComplete ref n s) e = phaseOf s e := phaseOf_set_of_ne (shlComplete_phases ref n s) h

theorem shlComplete_agenda (ref n : Nat) (s : State) : (shlComplete ref n s).agenda = s.agenda := by
  obtain ⟨-, -, -, hagenda, -⟩ := shlComplete_fields ref n s
  exact hagenda

theorem responded_shlComplete (ref n : Nat) (s : State) :
    Responded s (shlComplete ref n s) (shlCase s.cfg ref n (record s ref)).status := by
  obtain ⟨hcfg, hphases, hreadData, hagenda, hactive, hdrawn⟩ := shlComplete_fields ref n s
  exact ⟨shlComplete_responses ref n s, hphases, hcfg, hreadData, hagenda, hactive, hdrawn⟩

/-- The write set of SHL (R46): `len` and the written words of the record named. -/
theorem written_of_not_sameAt_shlComplete {ref n : Nat} {s : State} {a : Addr}
    (h : ¬ SameAt s (shlComplete ref n s) a) :
    Shifts s ref n ∧ a.ref = ref ∧
      (a.field = .len ∨ ∃ j < writtenWords s.cfg (record s ref) n, a.field = .word j) := by
  obtain ⟨hcase, href⟩ := shifted_of_not_sameAt_shlComplete h
  refine ⟨shlCase_eq_shifted.1 hcase, href, ?_⟩
  rw [SameAt, shlComplete_cfg, shlComplete_storage, if_pos hcase, memRead_storeShifted, if_pos href] at h
  cases hf : a.field with
  | len => exact .inl rfl
  | word i =>
    refine .inr ⟨i, by_contra fun hi => h ?_, rfl⟩
    simp only [hf, if_neg hi]

/-- SHL leaves the records it does not name alone; one with the null reference names none. -/
theorem sameAt_shlComplete {ref : Nat} (n : Nat) (s : State) {a : Addr} (h : ref = 0 ∨ ref ≠ a.ref) :
    SameAt s (shlComplete ref n s) a := by
  by_contra hchanged
  obtain ⟨⟨hne, -⟩, href, -⟩ := written_of_not_sameAt_shlComplete hchanged
  exact h.elim hne fun hother => hother href.symm

/-! ### SHL in two states that read alike -/

section congr
variable {s u : State} {ref : Nat} (hcfg : u.cfg = s.cfg) (h : ref ≠ 0 → ∀ f, SameAt s u ⟨ref, f⟩)
include hcfg h

/-- The case of a command depends on the record it names alone (R89). -/
theorem shlCase_congr (n : Nat) :
    shlCase u.cfg ref n (record u ref) = shlCase s.cfg ref n (record s ref) := by
  obtain rfl | hne := eq_or_ne ref 0
  · rfl
  · rw [record_eq_of_sameAt hcfg (h hne), hcfg]

theorem sameAt_shlComplete_congr (n : Nat) {a : Addr} (ha : SameAt s u a) :
    SameAt (shlComplete ref n s) (shlComplete ref n u) a := by
  have hcase := shlCase_congr hcfg h n
  simp only [SameAt, shlComplete_cfg, shlComplete_storage, hcase]
  split_ifs with hshift
  · obtain ⟨hne, -⟩ := shlCase_eq_shifted.1 hshift
    rw [memRead_storeShifted, memRead_storeShifted, record_eq_of_sameAt hcfg (h hne), ha, hcfg]
  · exact ha

end congr

/-! ### Steps, one after the other -/

theorem core_step (s : State) : Host.Core.step Sys2Proof.core s = step s := rfl

theorem run_two {s t u : State} (h1 : step s = .next t) (h2 : step t = .next u) :
    Host.Core.run Sys2Proof.core 2 s = .next u := by
  simp only [Host.Core.run, core_step, h1, h2]

/-- A fault ends the run: no later step clears it. -/
theorem run_of_fault {s : State} {why : Fault} (h : step s = .fault why) (k : Nat) :
    Host.Core.run Sys2Proof.core (k + 1) s = .fault why := by
  simp only [Host.Core.run, core_step, h]

/-! ### Host accesses -/

theorem step_read {s : State} {a : Addr} {rest : List Event} (hag : s.agenda = .read a :: rest)
    (haddr : isAddress s.cfg a = true) (hfree : owned s a.ref = false) :
    step s = .next { s with agenda := rest, readData := s.readData ++ [(a, memRead s.cfg s.storage a)] } :=
  (step_of_agenda_cons hag).trans (hostRead_next.2 ⟨haddr, hfree, rfl⟩)

theorem step_write {s : State} {a : Addr} {v : Nat} {rest : List Event} (hag : s.agenda = .write a v :: rest)
    (haddr : isAddress s.cfg a = true) (hfree : owned s a.ref = false) :
    step s = .next ({ s with agenda := rest }.write a v) :=
  (step_of_agenda_cons hag).trans (hostWrite_next.2 ⟨haddr, hfree, rfl⟩)

theorem owned_of_busy_mem {s : State} {r n : Nat} (hr : r ≠ 0) (h : .busy r n ∈ s.phases) : owned s r = true := by
  by_contra hfree
  exact (owned_eq_false_iff.1 (by simpa using hfree)).elim hr fun hnone => hnone n h

theorem hostRead_of_owned {s : State} {a : Addr} (haddr : isAddress s.cfg a = true) (hown : owned s a.ref = true) :
    hostRead a s = .fault .concurrentAccess := by
  simp [hostRead, haddr, hown]

theorem hostWrite_of_owned {s : State} {a : Addr} (v : Nat) (haddr : isAddress s.cfg a = true)
    (hown : owned s a.ref = true) : hostWrite a v s = .fault .concurrentAccess := by
  simp [hostWrite, haddr, hown]

theorem present_of_owned {s : State} {e cmd ref n : Nat} (he : e < s.cfg.NENGINES)
    (hd : decode s.cfg cmd = .ok (.shl ref n)) (hown : owned s ref = true) :
    present e cmd s = .fault .concurrentCommand := by
  simp [present, he.not_ge, hd, hown]

/-! ### The COMPLETE steps of two engines -/

/-- Under the invariant the COMPLETE of a busy engine goes on. -/
theorem Inv.step_complete {s : State} (h : Inv s) {e ref n : Nat} {rest : List Event}
    (hag : s.agenda = .complete e :: rest) (hbusy : phaseOf s e = .busy ref n) :
    step s = .next (Machine.shlComplete ref n { s with agenda := rest, active := e }) := by
  obtain ⟨-, hpre⟩ := h.inFlight _ (busy_mem_phases_iff.2 ⟨e, hbusy⟩)
  have hexec : step s = exec (.shl ref n) { s with agenda := rest, active := e } :=
    (step_of_agenda_cons hag).trans (complete_of_busy hbusy)
  exact hexec.trans (exec_shl_next.2 ⟨hpre, rfl⟩)

/-- A command in flight: the engine that holds it, and its operands. -/
structure Flight where
  engine : Nat
  ref : Nat
  shamt : Nat

/-- The commands `x` and `y` name different records, or none (R141). -/
def Flight.Apart (x y : Flight) : Prop := x.ref = 0 ∨ x.ref ≠ y.ref

theorem Flight.Apart.symm {x y : Flight} (h : x.Apart y) : y.Apart x := by
  unfold Flight.Apart at *
  omega

/-- What the COMPLETE of `x` leaves, with `ag` left to do. -/
def afterComplete (s : State) (x : Flight) (ag : List Event) : State :=
  shlComplete x.ref x.shamt { s with agenda := ag, active := x.engine }

/-- What the COMPLETE of `x` and then that of `y` leave. -/
def afterBoth (s : State) (x y : Flight) (rest : List Event) : State :=
  afterComplete (afterComplete s x (.complete y.engine :: rest)) y rest

/-- The status `x` gets when it completes from `s`. -/
def Flight.status (s : State) (x : Flight) : Status := (shlCase s.cfg x.ref x.shamt (record s x.ref)).status

section afterBoth
variable {s : State} {x y : Flight} (hxy : x.Apart y) (ag rest : List Event)

@[simp] theorem afterComplete_cfg : (afterComplete s x ag).cfg = s.cfg := shlComplete_cfg _ _ _

theorem afterComplete_phases : (afterComplete s x ag).phases = s.phases.set x.engine .idle := shlComplete_phases _ _ _

theorem afterComplete_responses : (afterComplete s x ag).responses = s.responses ++ [⟨x.engine, x.status s⟩] :=
  shlComplete_responses _ _ _

theorem sameAt_afterComplete {a : Addr} (h : x.ref = 0 ∨ x.ref ≠ a.ref) : SameAt s (afterComplete s x ag) a :=
  sameAt_shlComplete x.shamt { s with agenda := ag, active := x.engine } h

/-- The record of `x` depends on that record alone, whatever is left to do. -/
theorem sameAt_afterComplete_congr {u : State} (hcfg : u.cfg = s.cfg) (h : ∀ f, SameAt s u ⟨x.ref, f⟩) (f : Field) :
    SameAt (afterComplete s x rest) (afterComplete u x ag) ⟨x.ref, f⟩ :=
  sameAt_shlComplete_congr (s := { s with agenda := rest, active := x.engine })
    (u := { u with agenda := ag, active := x.engine }) hcfg (fun _ => h) x.shamt (h f)

theorem afterBoth_phases : (afterBoth s x y rest).phases = (s.phases.set x.engine .idle).set y.engine .idle := by
  rw [afterBoth, afterComplete_phases, afterComplete_phases]

/-- A field of no record named is as before. -/
theorem sameAt_afterBoth_of_ne {a : Addr} (hx : x.ref ≠ a.ref) (hy : y.ref ≠ a.ref) :
    SameAt s (afterBoth s x y rest) a :=
  (sameAt_afterComplete rest (.inr hy)).trans (sameAt_afterComplete _ (.inr hx))

include hxy

theorem Flight.Apart.sameAt (f : Field) : SameAt s (afterComplete s x ag) ⟨y.ref, f⟩ := sameAt_afterComplete ag hxy

/-- `y` finds the record it names as it was. -/
theorem afterBoth_responses : (afterBoth s x y rest).responses =
    s.responses ++ [⟨x.engine, x.status s⟩, ⟨y.engine, y.status s⟩] := by
  have hstatus : y.status (afterComplete s x (.complete y.engine :: rest)) = y.status s :=
    congrArg ShlCase.status (shlCase_congr (afterComplete_cfg _) (fun _ => hxy.sameAt _) y.shamt)
  rw [afterBoth, afterComplete_responses, afterComplete_responses, hstatus, List.append_assoc]
  rfl

/-- The record of `x` is as `x` alone leaves it. -/
theorem sameAt_afterBoth_first (f : Field) :
    SameAt (afterComplete s x rest) (afterBoth s x y rest) ⟨x.ref, f⟩ :=
  (hxy.symm.sameAt rest f).trans (sameAt_afterComplete_congr _ rest rfl (fun _ => rfl) f)

/-- The record of `y` is as `y` alone leaves it. -/
theorem sameAt_afterBoth_second (f : Field) :
    SameAt (afterComplete s y rest) (afterBoth s x y rest) ⟨y.ref, f⟩ :=
  sameAt_afterComplete_congr rest rest (afterComplete_cfg _) (hxy.sameAt _) f

/-- Either order leaves the same storage. -/
theorem sameAt_afterBoth_comm (a : Addr) : SameAt (afterBoth s x y rest) (afterBoth s y x rest) a := by
  obtain ⟨r, f⟩ := a
  by_cases hx : x.ref = r
  · subst hx
    exact (sameAt_afterBoth_second hxy.symm rest f).trans (sameAt_afterBoth_first hxy rest f).symm
  by_cases hy : y.ref = r
  · subst hy
    exact (sameAt_afterBoth_first hxy.symm rest f).trans (sameAt_afterBoth_second hxy rest f).symm
  · exact (sameAt_afterBoth_of_ne rest hy hx).trans (sameAt_afterBoth_of_ne rest hx hy).symm

/-- Either order gives each engine its one response. -/
theorem filter_responses_afterBoth_comm (hne : x.engine ≠ y.engine) (e : Nat) :
    (afterBoth s x y rest).responses.filter (·.engine = e) =
      (afterBoth s y x rest).responses.filter (·.engine = e) := by
  rw [afterBoth_responses hxy, afterBoth_responses hxy.symm, List.filter_append, List.filter_append]
  by_cases hx : x.engine = e
  · have hy : y.engine ≠ e := fun hy => hne (hx.trans hy.symm)
    simp [hx, hy]
  · simp [hx, List.filter_cons]

end afterBoth

/-- `s` holds the command `x` in flight. -/
def Flight.In (x : Flight) (s : State) : Prop := phaseOf s x.engine = .busy x.ref x.shamt

theorem exists_flight {s : State} {e : Nat} (h : phaseOf s e ≠ .idle) : ∃ x : Flight, x.engine = e ∧ x.In s := by
  cases hp : phaseOf s e with
  | idle => exact absurd hp h
  | busy ref n => exact ⟨⟨e, ref, n⟩, rfl, hp⟩

/-- The commands two engines hold are apart (R141). -/
theorem Inv.apart {s : State} (h : Inv s) {x y : Flight} (hne : x.engine ≠ y.engine) (hx : x.In s) (hy : y.In s) :
    x.Apart y :=
  (eq_or_ne x.ref 0).imp_right (h.ref_ne hne hx hy)

/-- The first COMPLETE keeps the invariant and leaves the second command in flight, so both steps go on. -/
theorem Inv.run_two_completes {s : State} (h : Inv s) {x y : Flight} (hne : x.engine ≠ y.engine) (hx : x.In s)
    (hy : y.In s) (rest : List Event) :
    Host.Core.run Sys2Proof.core 2 { s with agenda := .complete x.engine :: .complete y.engine :: rest } =
      .next (afterBoth s x y rest) := by
  have hstart : Inv { s with agenda := .complete x.engine :: .complete y.engine :: rest } :=
    h.of_fields_eq rfl rfl rfl h.activeEngine
  have hfirst := hstart.step_complete (e := x.engine) rfl hx
  have hmid : Inv (afterComplete s x (.complete y.engine :: rest)) := hstart.of_moved (step_moved hfirst)
  have hy' : y.In (afterComplete s x (.complete y.engine :: rest)) :=
    (phaseOf_set_of_ne (afterComplete_phases _) hne.symm).trans hy
  exact run_two hfirst (hmid.step_complete (shlComplete_agenda _ _ _) hy')

/-! ### Ports and their traces -/

/-- An access without the value it writes. -/
def Access.erase : Access → Access
  | .read a => .read a
  | .write a _ => .write a 0

theorem Access.erase_eq_read {x : Access} {a : Addr} : x.erase = .read a ↔ x = .read a := by
  cases x <;> simp [Access.erase]

/-- The accesses a port has made, without the values written. What a sequence accesses depends on the job alone, and
the values it writes on the storage. -/
def Port.trace (p : Port) : List Access := p.log.map Access.erase

theorem mem_readsOf {log : List Access} {a : Addr} : a ∈ readsOf log ↔ .read a ∈ log := by
  simp only [readsOf, List.mem_filterMap]
  constructor
  · rintro ⟨x, hx, ha⟩
    cases x <;> simp_all
  · exact fun h => ⟨_, h, rfl⟩

theorem mem_writesOf {log : List Access} {a : Addr} : a ∈ writesOf log ↔ ∃ w, .write a w ∈ log := by
  simp only [writesOf, List.mem_filterMap]
  constructor
  · rintro ⟨x, hx, ha⟩
    cases x with
    | read b => simp at ha
    | write b w =>
      cases ha
      exact ⟨w, hx⟩
  · exact fun ⟨w, h⟩ => ⟨_, h, rfl⟩

theorem mem_readsOf_log {p : Port} {a : Addr} : a ∈ readsOf p.log ↔ .read a ∈ p.trace := by
  simp [mem_readsOf, Port.trace, Access.erase_eq_read]

theorem mem_writesOf_log {p : Port} {a : Addr} : a ∈ writesOf p.log ↔ .write a 0 ∈ p.trace := by
  simp only [mem_writesOf, Port.trace, List.mem_map]
  constructor
  · exact fun ⟨w, h⟩ => ⟨_, h, rfl⟩
  · rintro ⟨x, hx, ha⟩
    cases x with
    | read b => simp [Access.erase] at ha
    | write b w =>
      obtain rfl : b = a := by simpa [Access.erase] using ha
      exact ⟨w, hx⟩

/-- Reads stand in a log as they stand in its trace. -/
theorem eq_reads_of_map_erase {log : List Access} {as : List Addr} (h : log.map Access.erase = as.map .read) :
    log = as.map .read := by
  induction as generalizing log with
  | nil => simpa using h
  | cons a as ih =>
    obtain ⟨x, log', rfl, hx, hlog⟩ := List.map_eq_cons_iff.1 h
    rw [Access.erase_eq_read.1 hx, ih hlog, List.map_cons]

theorem take_log_of_trace {p : Port} {as : List Addr} {tr : List Access} (h : p.trace = as.map .read ++ tr) :
    p.log.take as.length = as.map .read := by
  refine eq_reads_of_map_erase ?_
  rw [List.map_take, ← Port.trace, h, List.take_left' (List.length_map _)]

@[simp] theorem Port.read_trace (c : Config) (a : Addr) (p : Port) : (p.read c a).2.trace = p.trace ++ [.read a] := by
  simp [Port.trace, Port.read, Access.erase]

@[simp] theorem Port.write_trace (c : Config) (a : Addr) (v : Nat) (p : Port) :
    (p.write c a v).trace = p.trace ++ [.write a 0] := by
  simp [Port.trace, Port.write, Access.erase]

/-- A descending loop makes the accesses of its body, for each index in turn. -/
theorem forDown_trace {body : Nat → Port → Port} {tr : Nat → List Access} {lo : Nat}
    (h : ∀ i p, (body (lo + i) p).trace = p.trace ++ tr i) (k : Nat) (p : Port) :
    (forDown lo body k p).trace = p.trace ++ (List.range k).reverse.flatMap tr := by
  induction k generalizing p with
  | zero => simp [forDown]
  | succ k ih => simp [forDown, ih, h, List.range_succ]

/-! ### The accesses of sequence B -/

/-- The accesses of lines B3 to B6 for the source word `i`. -/
def acrossTrace (k : Job) (i : Nat) : List Access :=
  .read ⟨k.ref, .word i⟩ ::
    ((if k.bs ≠ 0 ∧ 1 ≤ i then [.read ⟨k.ref, .word (i - 1)⟩] else []) ++ [.write ⟨k.ref, .word (k.ws + i)⟩ 0])

theorem shiftWordAcross_trace (c : Config) (k : Job) (i : Nat) (p : Port) :
    (shiftWordAcross c k (k.ws + i) p).trace = p.trace ++ acrossTrace k i := by
  simp only [shiftWordAcross, acrossTrace, Nat.add_sub_cancel_left]
  split_ifs <;> simp

theorem zeroWord_trace (c : Config) (k : Job) (i : Nat) (p : Port) :
    (zeroWord c k (0 + i) p).trace = p.trace ++ [.write ⟨k.ref, .word i⟩ 0] := by
  rw [zeroWord, Port.write_trace, Nat.zero_add]

/-- The access of lines B1 and B2: the carry-out word. -/
def carryTrace (c : Config) (k : Job) : List Access :=
  if k.bs ≠ 0 ∧ k.t < c.CAPACITY then [.write ⟨k.ref, .word k.t⟩ 0] else []

/-- The accesses of line B7. -/
def zeroTrace (k : Job) : List Access := (List.range k.ws).reverse.flatMap fun i => [.write ⟨k.ref, .word i⟩ 0]

/-- The accesses of lines B1 to B7: the carry-out word, the word moves, the zero fill. -/
def movesTrace (c : Config) (k : Job) : List Access :=
  carryTrace c k ++ ((List.range k.len).reverse.flatMap (acrossTrace k) ++ zeroTrace k)

/-- Sequence B is its word moves, and then the write of `len`. -/
theorem sequenceB_eq_write (c : Config) (k : Job) (p : Port) :
    ∃ (q : Port) (n : Nat), sequenceB c k p = q.write c ⟨k.ref, .len⟩ n ∧
      q.trace = p.trace ++ movesTrace c k := by
  refine ⟨_, _, rfl, ?_⟩
  rw [forDown_trace (zeroWord_trace c k), forDown_trace (shiftWordAcross_trace c k), movesTrace, carryTrace, zeroTrace]
  split_ifs <;> simp

theorem mem_carryTrace {c : Config} {k : Job} {x : Access} :
    x ∈ carryTrace c k ↔ x = .write ⟨k.ref, .word k.t⟩ 0 ∧ k.bs ≠ 0 ∧ k.t < c.CAPACITY := by
  unfold carryTrace
  split_ifs with h <;> simp [h]

theorem mem_zeroTrace {k : Job} {x : Access} : x ∈ zeroTrace k ↔ ∃ i < k.ws, x = .write ⟨k.ref, .word i⟩ 0 := by
  simp [zeroTrace]

theorem read_mem_acrossTrace {k : Job} {i : Nat} {a : Addr} : .read a ∈ acrossTrace k i ↔
    a = ⟨k.ref, .word i⟩ ∨ (k.bs ≠ 0 ∧ 1 ≤ i) ∧ a = ⟨k.ref, .word (i - 1)⟩ := by
  unfold acrossTrace
  split_ifs with h <;> simp [h]

theorem write_mem_acrossTrace {k : Job} {i w : Nat} {a : Addr} :
    .write a w ∈ acrossTrace k i ↔ a = ⟨k.ref, .word (k.ws + i)⟩ ∧ w = 0 := by
  unfold acrossTrace
  split_ifs <;> simp

/-- The word moves read the significant words (R46). -/
theorem read_mem_movesTrace {c : Config} {k : Job} {a : Addr} :
    .read a ∈ movesTrace c k ↔ ∃ i < k.len, a = ⟨k.ref, .word i⟩ := by
  simp only [movesTrace, List.mem_append, mem_carryTrace, mem_zeroTrace, List.mem_flatMap, List.mem_reverse,
    List.mem_range, read_mem_acrossTrace, reduceCtorEq, false_and, false_or, and_false, exists_false, or_false]
  constructor
  · rintro ⟨i, hi, ha | ⟨-, ha⟩⟩
    · exact ⟨i, hi, ha⟩
    · exact ⟨i - 1, by omega, ha⟩
  · exact fun ⟨i, hi, ha⟩ => ⟨i, hi, .inl ha⟩

/-- The word moves write the words below `t`, and the word `t` when there is a bit shift and it is in the record
(R46). -/
theorem write_mem_movesTrace {c : Config} {k : Job} {a : Addr} : .write a 0 ∈ movesTrace c k ↔
    ∃ j, (j < k.t ∨ j = k.t ∧ k.bs ≠ 0 ∧ j < c.CAPACITY) ∧ a = ⟨k.ref, .word j⟩ := by
  simp only [movesTrace, List.mem_append, mem_carryTrace, mem_zeroTrace, List.mem_flatMap, List.mem_reverse,
    List.mem_range, write_mem_acrossTrace, Access.write.injEq, and_true]
  constructor
  · rintro (⟨ha, hbs⟩ | ⟨i, hi, ha⟩ | ⟨i, hi, ha⟩)
    · exact ⟨k.t, .inr ⟨rfl, hbs⟩, ha⟩
    · exact ⟨k.ws + i, .inl (by rw [Job.t]; omega), ha⟩
    · exact ⟨i, .inl (by rw [Job.t]; omega), ha⟩
  · rintro ⟨j, hj | ⟨rfl, hbs⟩, ha⟩
    · rw [Job.t] at hj
      by_cases hzero : j < k.ws
      · exact .inr (.inr ⟨j, hzero, ha⟩)
      · exact .inr (.inl ⟨j - k.ws, by omega, by rwa [Nat.add_sub_cancel' (not_lt.1 hzero)]⟩)
    · exact .inl ⟨ha, hbs⟩

/-! ### The order of the accesses of sequence B -/

/-- `y` does not read what `x` wrote (R47). -/
def NoReadBack (x y : Access) : Prop := ∀ a w, x = .write a w → y ≠ .read a

theorem noReadBack_erase {x y : Access} : NoReadBack x.erase y.erase ↔ NoReadBack x y := by
  cases x <;> cases y <;> simp [NoReadBack, Access.erase]

theorem noReadBack_of_read (a : Addr) (y : Access) : NoReadBack (.read a) y := by
  simp [NoReadBack]

theorem noReadBack_write (x : Access) (a : Addr) (w : Nat) : NoReadBack x (.write a w) := by
  simp [NoReadBack]

theorem pairwise_noReadBack_log {p : Port} : p.log.Pairwise NoReadBack ↔ p.trace.Pairwise NoReadBack := by
  rw [Port.trace, List.pairwise_map]
  simp only [noReadBack_erase]

theorem pairwise_reads_append {as : List Addr} {tr : List Access} (h : tr.Pairwise NoReadBack) :
    (as.map Access.read ++ tr).Pairwise NoReadBack := by
  induction as with
  | nil => exact h
  | cons a as ih => exact List.pairwise_cons.2 ⟨fun y _ => noReadBack_of_read a y, ih⟩

theorem pairwise_append_write {tr : List Access} (h : tr.Pairwise NoReadBack) (a : Addr) (w : Nat) :
    (tr ++ [Access.write a w]).Pairwise NoReadBack :=
  List.pairwise_append.2 ⟨h, List.pairwise_singleton _ _, fun x _ _ hy =>
    List.mem_singleton.1 hy ▸ noReadBack_write x a w⟩

theorem pairwise_acrossTrace (k : Job) (i : Nat) : (acrossTrace k i).Pairwise NoReadBack := by
  unfold acrossTrace
  split_ifs <;> simp [noReadBack_of_read]

/-- The descending order keeps every read ahead of the writes above it: word `i` goes to `ws + i`, and later moves read
below `i` (R114). -/
theorem pairwise_flatMap_acrossTrace (k : Job) :
    ((List.range k.len).reverse.flatMap (acrossTrace k)).Pairwise NoReadBack := by
  refine List.pairwise_flatMap.2 ⟨fun i _ => pairwise_acrossTrace k i, List.pairwise_reverse.2 ?_⟩
  refine List.pairwise_lt_range.imp fun {j i} hlt x hx y hy => ?_
  rintro a w rfl rfl
  obtain ⟨rfl, -⟩ := write_mem_acrossTrace.1 hx
  have hread := read_mem_acrossTrace.1 hy
  simp only [Addr.mk.injEq, Field.word.injEq] at hread
  omega

/-- The carry-out word is above the words read, and the zero fill reads nothing. -/
theorem pairwise_movesTrace (c : Config) (k : Job) : (movesTrace c k).Pairwise NoReadBack := by
  have hzero : ∀ x, ∀ y ∈ zeroTrace k, NoReadBack x y := by
    intro x y hy
    obtain ⟨i, -, rfl⟩ := mem_zeroTrace.1 hy
    exact noReadBack_write x _ 0
  have hcarry : ∀ x ∈ carryTrace c k, ∀ y ∈ movesTrace c k, NoReadBack x y := by
    intro x hx y hy
    obtain ⟨rfl, -⟩ := mem_carryTrace.1 hx
    rintro a w ⟨⟩ rfl
    obtain ⟨i, hi, heq⟩ := read_mem_movesTrace.1 hy
    simp only [Addr.mk.injEq, Field.word.injEq, Job.t] at heq
    omega
  refine List.pairwise_append.2 ⟨?_, List.pairwise_append.2 ⟨pairwise_flatMap_acrossTrace k, ?_, ?_⟩, ?_⟩
  · exact List.pairwise_of_forall_mem_list fun x hx y hy => hcarry x hx y (List.mem_append_left _ hy)
  · exact List.pairwise_of_forall_mem_list fun x _ => hzero x
  · exact fun x _ => hzero x
  · exact fun x hx y hy => hcarry x hx y (List.mem_append_right _ hy)

/-! ### The tests before a sequence -/

theorem bitlen_recordOf {c : Config} {m : Memory} {r : Nat} (hv : (recordOf c m r).Valid c)
    (hlen : 0 < (recordOf c m r).len) : (recordOf c m r).bitlen c =
      ((recordOf c m r).len - 1) * c.W + blen (memRead c m ⟨r, .word ((recordOf c m r).len - 1)⟩) := by
  obtain ⟨hcap, -⟩ := hv
  rw [Record.bitlen_of_len_pos hlen, recordOf_word c m r (by omega)]

/-- What a command in case 5 knows when its word moves begin. -/
def shiftJob (c : Config) (m : Memory) (ref n : Nat) : Job where
  ref := ref
  len := (recordOf c m ref).len
  top := memRead c m ⟨ref, .word ((recordOf c m ref).len - 1)⟩
  ws := wordShift c n
  bs := bitShift c n

/-- The two reads of the overflow test (R80 lines 3 and 5). -/
def testReads (c : Config) (m : Memory) (ref : Nat) : List Addr :=
  [⟨ref, .len⟩, ⟨ref, .word ((recordOf c m ref).len - 1)⟩]

section runSequence
variable {c : Config} {m : Memory} {ref n : Nat} (body : Config → Job → Port → Port) (href : ref ≠ 0) (hn : 0 < n)
include href hn

theorem runSequence_of_len_eq_zero (hlen : (recordOf c m ref).len = 0) :
    runSequence body c ref n ⟨m, []⟩ = (.success, ⟨m, [.read ⟨ref, .len⟩]⟩) := by
  rw [recordOf_len] at hlen
  simp [runSequence, href, hn.ne', Port.read, hlen]

theorem runSequence_of_overflow (hv : (recordOf c m ref).Valid c) (hlen : 0 < (recordOf c m ref).len)
    (hover : c.capBits < (recordOf c m ref).bitlen c + n) :
    runSequence body c ref n ⟨m, []⟩ = (.overflow, ⟨m, (testReads c m ref).map .read⟩) := by
  rw [bitlen_recordOf hv hlen] at hover
  rw [recordOf_len] at hlen hover
  simp only [runSequence, href, hn.ne', hlen.ne', Port.read, hover, if_true, if_false]
  rfl

theorem runSequence_of_fits (hv : (recordOf c m ref).Valid c) (hlen : 0 < (recordOf c m ref).len)
    (hfit : (recordOf c m ref).bitlen c + n ≤ c.capBits) :
    runSequence body c ref n ⟨m, []⟩ =
      (.success, body c (shiftJob c m ref n) ⟨m, (testReads c m ref).map .read⟩) := by
  rw [bitlen_recordOf hv hlen] at hfit
  rw [recordOf_len] at hlen hfit
  simp only [runSequence, href, hn.ne', hlen.ne', Port.read, hfit.not_gt, if_false]
  rfl

/-- In case 5 sequence B reads for the overflow test, moves words, and writes `len`. -/
theorem runSequence_sequenceB_eq_write (hv : (recordOf c m ref).Valid c) (hlen : 0 < (recordOf c m ref).len)
    (hfit : (recordOf c m ref).bitlen c + n ≤ c.capBits) :
    ∃ (q : Port) (w : Nat), (runSequence sequenceB c ref n ⟨m, []⟩).2 = q.write c ⟨ref, .len⟩ w ∧
      q.trace = (testReads c m ref).map .read ++ movesTrace c (shiftJob c m ref n) := by
  rw [runSequence_of_fits sequenceB href hn hv hlen hfit]
  obtain ⟨q, w, hq, htrace⟩ := sequenceB_eq_write c (shiftJob c m ref n) ⟨m, (testReads c m ref).map .read⟩
  exact ⟨q, w, hq, htrace⟩

end runSequence

end Sys2Proof.Machine

namespace Sys2Proof.Proofs

open Sys2Proof Sys2Proof.Machine

/-- Settles O27: what the response changes, and the write set of case 5. -/
theorem shlFrame : Obligations.ShlFrame := by
  intro s t ref n hexec
  obtain ⟨-, rfl⟩ := exec_shl_next.1 hexec
  exact ⟨⟨_, responded_shlComplete ref n s⟩, fun e he => phaseOf_shlComplete_of_ne ref n he,
    fun a hout => by_contra fun hchanged => hout (written_of_not_sameAt_shlComplete hchanged)⟩

/-- Settles O33, outcome by outcome; in case 5 the sets are read off the trace. -/
theorem sequenceBTouchesTheAccessSets : Obligations.SequenceBTouchesTheAccessSets := by
  intro c m ref n _ href hn hv log v
  refine ⟨fun hlen => ?_, fun hlen hover => ?_, fun hlen hfit => ?_⟩
  · exact congrArg (·.2.log) (runSequence_of_len_eq_zero sequenceB href hn hlen)
  · exact congrArg (·.2.log) (runSequence_of_overflow sequenceB href hn hv hlen hover)
  · obtain ⟨q, w, hq, htrace⟩ := runSequence_sequenceB_eq_write href hn hv hlen hfit
    simp only [log, hq]
    refine ⟨fun a => ?_, fun a => ?_⟩
    · have htop : v.len - 1 < v.len := by omega
      simp only [mem_readsOf_log, Port.write_trace, htrace, List.mem_append, read_mem_movesTrace, testReads,
        List.map_cons, List.map_nil, List.mem_cons, Access.read.injEq, reduceCtorEq, List.not_mem_nil, or_false]
      constructor
      · rintro ((ha | ha) | ha)
        · exact .inl ha
        · exact .inr ⟨_, htop, ha⟩
        · exact .inr ha
      · exact .imp_left .inl
    · simp only [mem_writesOf_log, Port.write_trace, htrace, List.mem_append, write_mem_movesTrace, List.mem_map,
        List.mem_singleton, Access.write.injEq, reduceCtorEq, and_true, and_false, exists_false, false_or]
      exact or_comm

/-- Settles O34: the trace of case 5 begins with the two reads of the overflow test, and its moves descend. -/
theorem sequenceBKeepsTheOrderOfAccesses : Obligations.SequenceBKeepsTheOrderOfAccesses := by
  intro c m ref n _ hv href hn hlen hfit log
  obtain ⟨q, w, hq, htrace⟩ := runSequence_sequenceB_eq_write href hn hv hlen hfit
  have hfull : (q.write c ⟨ref, .len⟩ w).trace = (testReads c m ref).map .read ++
      (movesTrace c (shiftJob c m ref n) ++ [.write ⟨ref, .len⟩ 0]) := by
    rw [Port.write_trace, htrace, List.append_assoc]
  have hlog : log = (q.write c ⟨ref, .len⟩ w).log := congrArg Port.log hq
  rw [hlog]
  refine ⟨take_log_of_trace hfull, pairwise_noReadBack_log.2 ?_, q.log, w, rfl, ?_⟩
  · rw [hfull]
    exact pairwise_reads_append (pairwise_append_write (pairwise_movesTrace c _) _ _)
  · simp [mem_writesOf_log, htrace, write_mem_movesTrace]

/-- Settles O42: each access meets an owned record, and the fault ends the run. -/
theorem touchingAnOwnedRecordFaults : Obligations.TouchingAnOwnedRecordFaults := by
  intro s r n rest hr hbusy
  have hown : owned s r = true := owned_of_busy_mem hr hbusy
  refine ⟨fun f haddr hag => ?_, fun f v haddr hag => ?_, fun e cmd n' he hdecode hag => ?_,
    fun why hfault k => run_of_fault hfault k⟩
  · exact (step_of_agenda_cons hag).trans (hostRead_of_owned haddr hown)
  · exact (step_of_agenda_cons hag).trans (hostWrite_of_owned v haddr hown)
  · exact (step_of_agenda_cons hag).trans (present_of_owned he hdecode hown)

/-- Settles O43: the write's step and then the read's. -/
theorem hostReadsBackWhatItWrote : Obligations.HostReadsBackWhatItWrote := by
  intro s a v rest hag haddr hfree
  refine ⟨_, run_two (step_write hag haddr hfree) (step_read rfl haddr hfree), ?_, fun b hb => ?_, rfl⟩
  · simp [trunc]
  · exact memRead_memWrite_of_ne _ _ v hb

/-- Settles O49: the two commands name different records, so each finds its own as it was. -/
theorem completesOfTwoEnginesCommute : Obligations.CompletesOfTwoEnginesCommute := by
  intro s e1 e2 rest h hne hbusy1 hbusy2
  obtain ⟨x, rfl, hx⟩ := exists_flight hbusy1
  obtain ⟨y, rfl, hy⟩ := exists_flight hbusy2
  have hxy : x.Apart y := h.apart hne hx hy
  refine ⟨afterBoth s x y rest, afterBoth s y x rest, h.run_two_completes hne hx hy rest,
    h.run_two_completes hne.symm hy hx rest, sameAt_afterBoth_comm hxy rest, ?_,
    filter_responses_afterBoth_comm hxy rest hne⟩
  rw [afterBoth_phases, afterBoth_phases, List.set_comm _ _ hne]

end Sys2Proof.Proofs
end

/-! Proofs of 30_encoding.md: the command word (R60 to R66), the worked encodings (R69), and the response word and its
channel (R64, R65). -/

namespace Sys2Proof

/-! ### The command word -/

/-- `{REF, SHAMT}` as arithmetic: the two fields do not overlap (R60). -/
theorem encode_shl {c : Config} {ref shamt : Nat} (h : shamt < 2 ^ c.SA_BITS) :
    encode c (.shl ref shamt) = 2 ^ c.SA_BITS * ref + shamt := by
  rw [encode, concatBits, ← Nat.shiftLeft_add_eq_or_of_lt h, Nat.shiftLeft_eq, Nat.mul_comm]

theorem encode_shl_div {c : Config} {ref shamt : Nat} (h : shamt < 2 ^ c.SA_BITS) :
    encode c (.shl ref shamt) / 2 ^ c.SA_BITS = ref := by
  rw [encode_shl h, Nat.mul_add_div (Nat.two_pow_pos _), Nat.div_eq_of_lt h, Nat.add_zero]

theorem encode_shl_mod {c : Config} {ref shamt : Nat} (h : shamt < 2 ^ c.SA_BITS) :
    encode c (.shl ref shamt) % 2 ^ c.SA_BITS = shamt := by
  rw [encode_shl h, Nat.mul_add_mod, Nat.mod_eq_of_lt h]

/-- Putting the two fields of a number together gives the number back. -/
theorem encode_div_mod (c : Config) (cmd : Nat) :
    encode c (.shl (cmd / 2 ^ c.SA_BITS) (cmd % 2 ^ c.SA_BITS)) = cmd := by
  rw [encode_shl (Nat.mod_lt _ (Nat.two_pow_pos _)), Nat.div_add_mod]

theorem wellFormed_shl {c : Config} {ref shamt : Nat} :
    WellFormed c (.shl ref shamt) = true ↔ ref < 2 ^ c.REF_BITS ∧ shamt < 2 ^ c.SA_BITS := by
  simp [WellFormed]

/-- The decoder on a command word: `REF` above `SHAMT` (R60, R66). -/
theorem decode_of_isWord {c : Config} {cmd : Nat} (hc : c.Wf) (h : IsWord c.cmdBits cmd) :
    decode c cmd = .ok (.shl (cmd / 2 ^ c.SA_BITS) (cmd % 2 ^ c.SA_BITS)) := by
  obtain ⟨-, -, -, href, hsa, -, -⟩ := hc
  have href' : c.REF_BITS + c.SA_BITS - 1 + 1 - c.SA_BITS = c.REF_BITS := by omega
  have hsa' : c.SA_BITS - 1 + 1 - 0 = c.SA_BITS := by omega
  have hfits : cmd / 2 ^ c.SA_BITS < 2 ^ c.REF_BITS := Nat.div_lt_of_lt_mul (by rwa [← pow_add, Nat.add_comm])
  rw [decode, if_pos h, bits, bits, href', hsa', Nat.shiftRight_eq_div_pow, Nat.mod_eq_of_lt hfits,
    Nat.shiftRight_zero]

theorem decode_of_not_isWord {c : Config} {cmd : Nat} (h : ¬ IsWord c.cmdBits cmd) :
    decode c cmd = .error .notACommandWord := if_neg h

end Sys2Proof

namespace Sys2Proof.Machine

/-! ### The response channel -/

/-- The engine that executes SHL is `IDLE` after it (R80 `respond`). -/
theorem phaseOf_shlComplete_active (ref n : Nat) (s : State) : phaseOf (shlComplete ref n s) s.active = .idle := by
  rw [phaseOf, shlComplete_phases, getD_set_idle_self]

/-- What a move does to the responses (R64): nothing, the host takes one, reset drops them, or an engine with a command
in flight adds one and is `IDLE`. -/
theorem Moved.responses_cases {s t : State} (h : Moved s t) :
    t.responses = s.responses ∨
      (t.responses = s.responses.tail ∧ ∃ rest, s.agenda = .take :: rest) ∨
      (t.responses = [] ∧ ∃ rest, s.agenda = .reset :: rest) ∨
      ∃ e ref n st, phaseOf s e = .busy ref n ∧ phaseOf t e = .idle ∧ t.responses = s.responses ++ [⟨e, st⟩] := by
  cases h with
  | stays ag => exact .inl rfl
  | completes ag e ref n hbusy hpre =>
    exact .inr (.inr (.inr ⟨e, ref, n, _, hbusy, phaseOf_shlComplete_active ref n { s with agenda := ag, active := e },
      shlComplete_responses ref n _⟩))
  | accepts e cmd ref n rest hag hdecode hfree hidle hpre => exact .inl rfl
  | reads a rest hag => exact .inl rfl
  | writes a v rest hag haddr hfree => exact .inl rfl
  | takes rest hag => exact .inr (.inl ⟨rfl, rest, hag⟩)
  | resets rest hag => exact .inr (.inr (.inl ⟨rfl, rest, hag⟩))

/-- A command in flight ends by reset or with one response of its engine (R28, R36, R64). -/
theorem Moved.reset_or_responds {s t : State} (h : Moved s t) {e ref n : Nat} (hbusy : phaseOf s e = .busy ref n)
    (hidle : phaseOf t e = .idle) :
    (t.responses = [] ∧ ∃ rest, s.agenda = .reset :: rest) ∨ ∃ st, t.responses = s.responses ++ [⟨e, st⟩] := by
  have hchanged : phaseOf t e ≠ phaseOf s e := by simp [hbusy, hidle]
  cases h with
  | stays ag => exact absurd rfl hchanged
  | completes ag e' ref' n' hbusy' hpre =>
    obtain rfl : e = e' := by_contra fun hne => hchanged (phaseOf_shlComplete_of_ne ref' n' hne)
    exact .inr ⟨_, shlComplete_responses ref' n' _⟩
  | accepts e' cmd ref' n' rest hag hdecode hfree hidle' hpre =>
    obtain rfl : e = e' := by_contra fun hne => hchanged (phaseOf_set_of_ne rfl hne)
    cases hbusy.symm.trans hidle'
  | reads a rest hag => exact absurd rfl hchanged
  | writes a v rest hag haddr hfree => exact absurd rfl hchanged
  | takes rest hag => exact absurd rfl hchanged
  | resets rest hag => exact .inl ⟨rfl, rest, hag⟩

end Sys2Proof.Machine

namespace Sys2Proof.Proofs

open Sys2Proof Sys2Proof.Machine

/-- Settles O1: the encoding is a command word, and its quotient and remainder are the two operands. -/
theorem decodeOfEncodeIsTheInstruction : Obligations.DecodeOfEncodeIsTheInstruction := by
  intro c i hc hwf
  obtain ⟨ref, shamt⟩ := i
  obtain ⟨-, hshamt⟩ := wellFormed_shl.1 hwf
  rw [decode_of_isWord hc (Laws.EncodeFits.shl ref shamt c hwf), encode_shl_div hshamt, encode_shl_mod hshamt]

/-- Settles O2: the operands are the word's quotient and remainder. -/
theorem everyCommandWordDecodesToOneShl : Obligations.EveryCommandWordDecodesToOneShl := by
  intro c cmd hc
  refine ⟨fun hword => ?_, fun hwide => decode_of_not_isWord hwide.not_gt⟩
  have hdecode := decode_of_isWord hc hword
  exact ⟨_, _, hdecode, wellFormed_of_decode hc hdecode, encode_div_mod c cmd⟩

/-- Settles O3. -/
theorem commandWordHoldsRefAboveShamt : Obligations.CommandWordHoldsRefAboveShamt :=
  ⟨fun c ref shamt _ href hshamt => ⟨rfl, Laws.EncodeFits.shl ref shamt c (wellFormed_shl.2 ⟨href, hshamt⟩),
    encode_shl_div hshamt, encode_shl_mod hshamt⟩, rfl, rfl, rfl⟩

/-- Settles O53, move by move: only COMPLETE adds a response, and only COMPLETE and reset end a command. -/
theorem oneResponsePerCompletedCommand : Obligations.OneResponsePerCompletedCommand :=
  fun _ _ hstep => ⟨(step_moved hstep).responses_cases, fun _ _ _ => (step_moved hstep).reset_or_responds⟩

/-- Settles O4, by evaluating the reader, the encoder and the decoder on the five rows. -/
theorem workedEncodingsDecode : Obligations.WorkedEncodingsDecode := by
  unfold Obligations.WorkedEncodingsDecode
  decide

/-- Settles O5, status by status. -/
theorem statusCodesAreZeroOneTwo : Obligations.StatusCodesAreZeroOneTwo := by
  refine ⟨rfl, rfl, rfl, fun st => ?_, rfl⟩
  cases st <;> decide

/-- Settles O36: the presentation decodes, passes the checks, and is ACCEPT. -/
theorem acceptLatchesTheFields : Obligations.AcceptLatchesTheFields := by
  intro s e cmd rest hc hag he hidle hword hfree hpre
  rw [step_of_agenda_cons hag]
  exact (present_of_idle (s := { s with agenda := rest }) he (decode_of_isWord hc hword) hfree hidle).trans
    (accept_next.2 ⟨hpre, rfl⟩)

end Sys2Proof.Proofs

/-! Proofs of 40_shift_left.md: when a shift succeeds and what it leaves (R85 to R87, R91), SHL as the pure function on
its record (R89, R90), and its outcomes outside case 5 (R80 to R84, R92). -/

namespace Sys2Proof.Machine

/-! ### The bits that cross a word boundary -/

theorem bitShift_lt {c : Config} (hc : c.Wf) (n : Nat) : bitShift c n < c.W := Nat.mod_lt _ hc.1

theorem mul_wordShift_add_bitShift (c : Config) (n : Nat) : c.W * wordShift c n + bitShift c n = n :=
  Nat.div_add_mod n c.W

theorem two_pow_sub_mul_two_pow {w b : Nat} (hb : b ≤ w) : 2 ^ (w - b) * 2 ^ b = 2 ^ w := by
  rw [← pow_add, Nat.sub_add_cancel hb]

/-- The barrel shifter's two halves are the quotient and the remainder of the shifted word: here the quotient. -/
theorem shiftRight_sub_eq_div {w b : Nat} (hb : b ≤ w) (x : Nat) : x >>> (w - b) = x * 2 ^ b / 2 ^ w := by
  rw [Nat.shiftRight_eq_div_pow, ← two_pow_sub_mul_two_pow hb, Nat.mul_div_mul_right _ _ (Nat.two_pow_pos b)]

/-- The remainder leaves `b` zero bits at the bottom, so a carry put there by `|||` is added. -/
theorem trunc_shiftLeft_or {w b : Nat} (hb : b ≤ w) (x : Nat) {y : Nat} (hy : y < 2 ^ b) :
    trunc w (x <<< b) ||| y = x * 2 ^ b % 2 ^ w + y := by
  have hlow : trunc w (x <<< b) = (x % 2 ^ (w - b)) <<< b := by
    rw [trunc, Nat.shiftLeft_eq, Nat.shiftLeft_eq, ← two_pow_sub_mul_two_pow hb, Nat.mul_mod_mul_right]
  rw [hlow, ← Nat.shiftLeft_add_eq_or_of_lt hy, ← hlow, trunc, Nat.shiftLeft_eq]

theorem carryIn_zero (c : Config) (v : Record) (bs : Nat) : carryIn c v bs 0 = 0 := if_pos (.inr rfl)

theorem carryIn_succ {c : Config} {v : Record} {bs : Nat} (hs : v.Shaped c) (hbs : bs ≤ c.W) (k : Nat) :
    carryIn c v bs (k + 1) = v.word k * 2 ^ bs / 2 ^ c.W := by
  obtain rfl | hne := eq_or_ne bs 0
  · rw [pow_zero, Nat.mul_one, Nat.div_eq_of_lt (hs.word_lt k)]
    exact if_pos (.inl rfl)
  · rw [← shiftRight_sub_eq_div hbs]
    exact if_neg (by omega)

/-- The carry-out is the carry into the word above the top significant one. -/
theorem carryOut_eq_carryIn {v : Record} (hlen : 0 < v.len) (c : Config) (bs : Nat) :
    carryOut c v bs = carryIn c v bs v.len := by
  simp [carryOut, carryIn, hlen.ne']

theorem carryIn_lt {c : Config} {v : Record} {bs : Nat} (hs : v.Shaped c) (hbs : bs ≤ c.W) (k : Nat) :
    carryIn c v bs k < 2 ^ bs := by
  cases k with
  | zero => rw [carryIn_zero]; exact Nat.two_pow_pos bs
  | succ k =>
    rw [carryIn_succ hs hbs]
    exact Nat.div_lt_of_lt_mul (Nat.mul_lt_mul_of_pos_right (hs.word_lt k) (Nat.two_pow_pos bs))

/-! ### The result words -/

theorem newWord_of_lt_wordShift {c : Config} {n j : Nat} (v : Record) (hj : j < wordShift c n) :
    newWord c v n j = 0 := if_pos hj

/-- A moved word: the low part of its own shift, and the carry from the word below. -/
theorem newWord_wordShift_add {c : Config} {v : Record} {i : Nat} (hc : c.Wf) (hs : v.Shaped c) (n : Nat)
    (hi : i < v.len) : newWord c v n (wordShift c n + i) =
      v.word i * 2 ^ bitShift c n % 2 ^ c.W + carryIn c v (bitShift c n) i := by
  have hbs := (bitShift_lt hc n).le
  have hlow : ¬ wordShift c n + i < wordShift c n := by omega
  have hmoved : wordShift c n + i < topIndex c v n := by rw [topIndex]; omega
  rw [newWord, if_neg hlow, if_pos hmoved, Nat.add_sub_cancel_left, trunc_shiftLeft_or hbs _ (carryIn_lt hs hbs i)]

theorem bitShift_ne_zero_of_carryOut {c : Config} {v : Record} {n : Nat} (h : carryOut c v (bitShift c n) ≠ 0) :
    bitShift c n ≠ 0 := fun hbs => h (if_pos hbs)

/-- The word above the moved ones, when the record has one and the shift splits words. -/
theorem newWord_topIndex {c : Config} {v : Record} {n : Nat} (htop : topIndex c v n < c.CAPACITY)
    (hbs : bitShift c n ≠ 0) : newWord c v n (topIndex c v n) = carryOut c v (bitShift c n) := by
  have hlow : ¬ topIndex c v n < wordShift c n := by rw [topIndex]; omega
  rw [newWord, if_neg hlow, if_neg (lt_irrefl _), if_pos ⟨rfl, htop, hbs⟩]

theorem newWord_lt {c : Config} {v : Record} (hc : c.Wf) (hs : v.Shaped c) (n j : Nat) :
    newWord c v n j < 2 ^ c.W := by
  have hbs := (bitShift_lt hc n).le
  simp only [newWord]
  split_ifs
  · exact Nat.two_pow_pos _
  · exact Nat.or_lt_two_pow (trunc_lt _ _) ((carryIn_lt hs hbs _).trans_le (Nat.pow_le_pow_right two_pos hbs))
  · unfold carryOut
    split_ifs
    · exact Nat.two_pow_pos _
    · exact (Nat.shiftRight_le _ _).trans_lt (hs.word_lt _)
  · exact hs.word_lt j

/-- A word above the written ones keeps its contents (R46, R111). -/
theorem newWord_of_writtenWords_le {c : Config} {v : Record} {n j : Nat} (hj : writtenWords c v n ≤ j) :
    newWord c v n j = v.word j := by
  unfold writtenWords at hj
  have hmoved : ¬ j < topIndex c v n := by omega
  have hlow : ¬ j < wordShift c n := by rw [topIndex] at hmoved; omega
  have hcarry : ¬ (j = topIndex c v n ∧ topIndex c v n < c.CAPACITY ∧ bitShift c n ≠ 0) := by
    rintro ⟨rfl, htop, hbs⟩
    rw [if_pos ⟨hbs, htop⟩] at hj
    omega
  rw [newWord, if_neg hlow, if_neg hmoved, if_neg hcarry]

/-! ### Values: the length and the words are read off the magnitude -/

theorem blen_mul_two_pow {x : Nat} (hx : x ≠ 0) (k : Nat) : blen (x * 2 ^ k) = blen x + k := by
  rw [← Nat.zero_add (x * 2 ^ k), blen_add_mul_two_pow (Nat.two_pow_pos k) hx, Nat.add_comm]

theorem Record.magnitude_ne_zero {c : Config} {v : Record} (hv : v.Valid c) (hlen : 0 < v.len) :
    v.magnitude c ≠ 0 := by
  obtain ⟨-, htop⟩ := hv
  have hterm := Nat.mul_pos (Nat.pos_of_ne_zero (htop hlen)) (Nat.two_pow_pos (c.W * (v.len - 1)))
  rw [Record.magnitude_of_len_pos hlen]
  omega

theorem Record.magnitude_lt {c : Config} {v : Record} (hs : v.Shaped c) (hv : v.Valid c) :
    v.magnitude c < 2 ^ c.capBits := by
  obtain ⟨hcap, -⟩ := hv
  refine (Record.weightedSum_lt hs v.len).trans_le (Nat.pow_le_pow_right two_pos ?_)
  rw [Nat.mul_comm]
  exact Nat.mul_le_mul_right c.W hcap

/-- The overflow test on bit lengths is a bound on the shifted magnitude (R85). -/
theorem bitlen_add_le_iff {c : Config} {v : Record} (hs : v.Shaped c) (hv : v.Valid c) (hlen : 0 < v.len) (n : Nat) :
    v.bitlen c + n ≤ c.capBits ↔ v.magnitude c * 2 ^ n < 2 ^ c.capBits := by
  rw [← blen_le_iff, blen_mul_two_pow (Record.magnitude_ne_zero hv hlen), Record.bitlen_eq_blen_magnitude hs hv]

/-- A valid value has as many words as its bits need. -/
theorem Record.len_eq_of_len_pos {c : Config} {v : Record} (hs : v.Shaped c) (hv : v.Valid c) (hlen : 0 < v.len) :
    v.len = (v.bitlen c - 1) / c.W + 1 := by
  obtain ⟨-, htop⟩ := hv
  have hpos := blen_pos_iff.2 (htop hlen)
  have hle : blen (v.word (v.len - 1)) ≤ c.W := blen_le_iff.2 (hs.word_lt _)
  have hdiv : (v.bitlen c - 1) / c.W = v.len - 1 := by
    rw [Record.bitlen_of_len_pos hlen, Nat.add_sub_assoc hpos, Nat.mul_comm, Nat.mul_add_div (hpos.trans_le hle),
      Nat.div_eq_of_lt (by omega), Nat.add_zero]
  omega

theorem Record.word_eq_of_weightedSum_eq {c : Config} {v u : Record} (hv : v.Shaped c) (hu : u.Shaped c) {k : Nat}
    (h : v.weightedSum c k = u.weightedSum c k) : ∀ i < k, v.word i = u.word i := by
  induction k with
  | zero => exact fun i hi => absurd hi (Nat.not_lt_zero i)
  | succ k ih =>
    have hmod : ∀ w : Record, w.Shaped c → w.weightedSum c (k + 1) % 2 ^ (c.W * k) = w.weightedSum c k :=
      fun w hw => by rw [Record.weightedSum, Nat.add_mul_mod_self_right, Nat.mod_eq_of_lt (weightedSum_lt hw k)]
    have hbelow : v.weightedSum c k = u.weightedSum c k := by rw [← hmod v hv, h, hmod u hu]
    intro i hi
    obtain hlt | rfl := Nat.lt_succ_iff_lt_or_eq.1 hi
    · exact ih hbelow i hlt
    · rw [Record.weightedSum, Record.weightedSum, hbelow] at h
      exact Nat.eq_of_mul_eq_mul_right (Nat.two_pow_pos _) (Nat.add_left_cancel h)

theorem Record.len_eq_zero_iff {c : Config} {v : Record} (hv : v.Valid c) : v.len = 0 ↔ v.magnitude c = 0 :=
  ⟨Record.magnitude_of_len_eq_zero, fun h => by_contra fun hlen =>
    Record.magnitude_ne_zero hv (Nat.pos_of_ne_zero hlen) h⟩

/-- Valid records with one magnitude are equal as values (R26). -/
theorem Record.sameValue_of_magnitude_eq {c : Config} {v u : Record} (hvs : v.Shaped c) (hv : v.Valid c)
    (hus : u.Shaped c) (hu : u.Valid c) (h : v.magnitude c = u.magnitude c) : v.SameValue u := by
  have hlen : v.len = u.len := by
    obtain hzero | hpos := Nat.eq_zero_or_pos v.len
    · rw [hzero, (Record.len_eq_zero_iff hu).2 (h ▸ Record.magnitude_of_len_eq_zero hzero)]
    · have hpos' : 0 < u.len := Nat.pos_of_ne_zero fun hu0 =>
        Record.magnitude_ne_zero hv hpos (h.trans (Record.magnitude_of_len_eq_zero hu0))
      rw [Record.len_eq_of_len_pos hvs hv hpos, Record.len_eq_of_len_pos hus hu hpos',
        Record.bitlen_eq_blen_magnitude hvs hv, Record.bitlen_eq_blen_magnitude hus hu, h]
  refine ⟨hlen, Record.word_eq_of_weightedSum_eq hvs hus ?_⟩
  rw [Record.magnitude, Record.magnitude, ← hlen] at h
  exact h

/-! ### The shifted record -/

theorem shifted_word_of_lt {c : Config} {j : Nat} (v : Record) (n : Nat) (hj : j < c.CAPACITY) :
    (shifted c v n).word j = newWord c v n j := (shifted_word c v n j).trans (if_pos hj)

theorem weightedSum_shifted_wordShift (c : Config) (v : Record) (n : Nat) :
    (shifted c v n).weightedSum c (wordShift c n) = 0 := by
  rw [Record.weightedSum_eq_sum]
  refine Finset.sum_eq_zero fun j hj => ?_
  rw [shifted_word, newWord_of_lt_wordShift v (Finset.mem_range.1 hj), ite_self, Nat.zero_mul]

theorem newLen_pos {c : Config} {v : Record} (hlen : 0 < v.len) (n : Nat) : 0 < newLen c v n := by
  rw [newLen, topIndex]
  omega

theorem newLen_of_carryOut_eq_zero {c : Config} {v : Record} {n : Nat} (h : carryOut c v (bitShift c n) = 0) :
    newLen c v n = topIndex c v n := by
  simp [newLen, h]

theorem newLen_of_carryOut_ne_zero {c : Config} {v : Record} {n : Nat} (h : carryOut c v (bitShift c n) ≠ 0) :
    newLen c v n = topIndex c v n + 1 := by
  simp [newLen, h]

section fits
variable {c : Config} {v : Record} {n : Nat} (hc : c.Wf) (hs : v.Shaped c) (hv : v.Valid c) (hlen : 0 < v.len)
  (hfit : v.bitlen c + n ≤ c.capBits)
include hc hs hv hlen hfit

/-- The words written so far and the carry into the next one are the shifted sum of the words read so far. -/
theorem weightedSum_shifted_add_carryIn {i : Nat} (hi : i ≤ v.len) :
    (shifted c v n).weightedSum c (wordShift c n + i) +
      carryIn c v (bitShift c n) i * 2 ^ (c.W * (wordShift c n + i)) = v.weightedSum c i * 2 ^ n := by
  induction i with
  | zero => simp [carryIn_zero, weightedSum_shifted_wordShift, Record.weightedSum]
  | succ i ih =>
    have hcap : wordShift c n + i < c.CAPACITY := by
      have htop := topIndex_le_capacity hv hlen hfit
      rw [topIndex] at htop
      omega
    have hweight : 2 ^ bitShift c n * 2 ^ (c.W * (wordShift c n + i)) = 2 ^ (c.W * i) * 2 ^ n := by
      conv_rhs => rw [← mul_wordShift_add_bitShift c n]
      ring
    have hsplit := Nat.mod_add_div (v.word i * 2 ^ bitShift c n) (2 ^ c.W)
    rw [carryIn_succ hs (bitShift_lt hc n).le, ← Nat.add_assoc, Record.weightedSum, Record.weightedSum,
      shifted_word_of_lt v n hcap, newWord_wordShift_add hc hs n hi]
    generalize v.word i * 2 ^ bitShift c n % 2 ^ c.W = low at hsplit ⊢
    generalize v.word i * 2 ^ bitShift c n / 2 ^ c.W = high at hsplit ⊢
    calc (shifted c v n).weightedSum c (wordShift c n + i) +
          (low + carryIn c v (bitShift c n) i) * 2 ^ (c.W * (wordShift c n + i)) +
          high * 2 ^ (c.W * (wordShift c n + i + 1))
      _ = ((shifted c v n).weightedSum c (wordShift c n + i) +
            carryIn c v (bitShift c n) i * 2 ^ (c.W * (wordShift c n + i))) +
          (low + 2 ^ c.W * high) * 2 ^ (c.W * (wordShift c n + i)) := by ring
      _ = v.weightedSum c i * 2 ^ n + v.word i * (2 ^ bitShift c n * 2 ^ (c.W * (wordShift c n + i))) := by
        rw [ih (by omega), hsplit, Nat.mul_assoc]
      _ = (v.weightedSum c i + v.word i * 2 ^ (c.W * i)) * 2 ^ n := by rw [hweight]; ring

theorem weightedSum_shifted_add_carryOut :
    (shifted c v n).weightedSum c (topIndex c v n) +
      carryOut c v (bitShift c n) * 2 ^ (c.W * topIndex c v n) = v.magnitude c * 2 ^ n := by
  have h := weightedSum_shifted_add_carryIn hc hs hv hlen hfit le_rfl
  rwa [← carryOut_eq_carryIn hlen, Nat.add_comm (wordShift c n)] at h

/-- A carry-out has a word to go to (R103 c). -/
theorem topIndex_lt_capacity_of_carryOut (hout : carryOut c v (bitShift c n) ≠ 0) : topIndex c v n < c.CAPACITY := by
  have hsum := weightedSum_shifted_add_carryOut hc hs hv hlen hfit
  have hlt : 2 ^ (c.W * topIndex c v n) < 2 ^ (c.W * c.CAPACITY) :=
    calc 2 ^ (c.W * topIndex c v n)
      _ ≤ carryOut c v (bitShift c n) * 2 ^ (c.W * topIndex c v n) :=
        Nat.le_mul_of_pos_left _ (Nat.pos_of_ne_zero hout)
      _ ≤ v.magnitude c * 2 ^ n := by omega
      _ < 2 ^ (c.W * c.CAPACITY) := by
        rw [Nat.mul_comm c.W]
        exact (bitlen_add_le_iff hs hv hlen n).1 hfit
  exact Nat.lt_of_mul_lt_mul_left ((Nat.pow_lt_pow_iff_right Nat.one_lt_two).1 hlt)

theorem newLen_le_capacity : newLen c v n ≤ c.CAPACITY := by
  unfold newLen
  split_ifs with hout
  · exact topIndex_lt_capacity_of_carryOut hc hs hv hlen hfit hout
  · exact topIndex_le_capacity hv hlen hfit

theorem newLen_lt : newLen c v n < 2 ^ c.LEN_BITS := by
  have hle := newLen_le_capacity hc hs hv hlen hfit
  obtain ⟨-, -, hcap, -⟩ := hc
  omega

theorem shifted_shaped : (shifted c v n).Shaped c := by
  refine ⟨by simp [shifted], fun x hx => ?_, newLen_lt hc hs hv hlen hfit⟩
  obtain ⟨j, -, rfl⟩ := List.mem_map.1 hx
  exact newWord_lt hc hs n j

/-- The top word of the result: the carry-out, or the old top word, of which then no bit was carried out. -/
theorem shifted_top_ne_zero : (shifted c v n).word (newLen c v n - 1) ≠ 0 := by
  have htop := topIndex_le_capacity hv hlen hfit
  by_cases hout : carryOut c v (bitShift c n) = 0
  · have hindex : newLen c v n - 1 = wordShift c n + (v.len - 1) := by
      rw [newLen_of_carryOut_eq_zero hout, topIndex]
      omega
    rw [topIndex] at htop
    obtain ⟨-, hne⟩ := hv
    have hzero : v.word (v.len - 1) * 2 ^ bitShift c n / 2 ^ c.W = 0 := by
      rw [← carryIn_succ hs (bitShift_lt hc n).le, Nat.sub_add_cancel hlen, ← carryOut_eq_carryIn hlen, hout]
    have hword : v.word (v.len - 1) * 2 ^ bitShift c n < 2 ^ c.W :=
      (Nat.div_eq_zero_iff.1 hzero).resolve_left (Nat.two_pow_pos _).ne'
    have hpos := Nat.mul_pos (Nat.pos_of_ne_zero (hne hlen)) (Nat.two_pow_pos (bitShift c n))
    rw [hindex, shifted_word_of_lt v n (by omega), newWord_wordShift_add hc hs n (by omega), Nat.mod_eq_of_lt hword]
    omega
  · have hlt := topIndex_lt_capacity_of_carryOut hc hs hv hlen hfit hout
    rwa [newLen_of_carryOut_ne_zero hout, Nat.add_sub_cancel, shifted_word_of_lt v n hlt,
      newWord_topIndex hlt (bitShift_ne_zero_of_carryOut hout)]

theorem shifted_valid : (shifted c v n).Valid c :=
  ⟨newLen_le_capacity hc hs hv hlen hfit, fun _ => shifted_top_ne_zero hc hs hv hlen hfit⟩

/-- R86 for the closed form. -/
theorem magnitude_shifted : (shifted c v n).magnitude c = v.magnitude c * 2 ^ n := by
  rw [← weightedSum_shifted_add_carryOut hc hs hv hlen hfit]
  change (shifted c v n).weightedSum c (newLen c v n) = _
  by_cases hout : carryOut c v (bitShift c n) = 0
  · rw [newLen_of_carryOut_eq_zero hout, hout, Nat.zero_mul, Nat.add_zero]
  · have hlt := topIndex_lt_capacity_of_carryOut hc hs hv hlen hfit hout
    rw [newLen_of_carryOut_ne_zero hout, Record.weightedSum, shifted_word_of_lt v n hlt,
      newWord_topIndex hlt (bitShift_ne_zero_of_carryOut hout)]

theorem bitlen_shifted : (shifted c v n).bitlen c = v.bitlen c + n := by
  rw [Record.bitlen_eq_blen_magnitude (shifted_shaped hc hs hv hlen hfit) (shifted_valid hc hs hv hlen hfit),
    magnitude_shifted hc hs hv hlen hfit, blen_mul_two_pow (Record.magnitude_ne_zero hv hlen),
    Record.bitlen_eq_blen_magnitude hs hv]

/-- The new length is the number of words the new bit length needs (R87, R112). -/
theorem newLen_eq : newLen c v n = (v.bitlen c + n - 1) / c.W + 1 := by
  have h := Record.len_eq_of_len_pos (shifted_shaped hc hs hv hlen hfit) (shifted_valid hc hs hv hlen hfit)
    (newLen_pos hlen n)
  rwa [bitlen_shifted hc hs hv hlen hfit] at h

end fits

/-! ### The pure function -/

/-- The ways `shl` can end (R90). -/
theorem shl_cases (c : Config) (v : Record) (n : Nat) :
    (shl c v n = (.success, v) ∧ (n = 0 ∨ v.len = 0)) ∨
      (shl c v n = (.overflow, v) ∧ 0 < n ∧ 0 < v.len ∧ c.capBits < v.bitlen c + n) ∨
      (shl c v n = (.success, shifted c v n) ∧ 0 < n ∧ 0 < v.len ∧ v.bitlen c + n ≤ c.capBits) := by
  unfold shl
  split_ifs with hn hlen hover
  · exact .inl ⟨rfl, .inl hn⟩
  · exact .inl ⟨rfl, .inr hlen⟩
  · exact .inr (.inl ⟨rfl, Nat.pos_of_ne_zero hn, Nat.pos_of_ne_zero hlen, hover⟩)
  · exact .inr (.inr ⟨rfl, Nat.pos_of_ne_zero hn, Nat.pos_of_ne_zero hlen, not_lt.1 hover⟩)

section shl
variable {c : Config} {v : Record} (hs : v.Shaped c) (hv : v.Valid c)
include hs hv

/-- A shift succeeds or overflows, and which one the magnitude decides (R91 i). -/
theorem shl_status (n : Nat) :
    ((shl c v n).1 = .success ∧ v.magnitude c * 2 ^ n < 2 ^ c.capBits) ∨
      ((shl c v n).1 = .overflow ∧ 2 ^ c.capBits ≤ v.magnitude c * 2 ^ n) := by
  obtain ⟨h, hsame⟩ | ⟨h, -, hlen, hover⟩ | ⟨h, -, hlen, hfit⟩ := shl_cases c v n <;> rw [h]
  · refine .inl ⟨rfl, ?_⟩
    obtain rfl | hlen := hsame
    · simpa using Record.magnitude_lt hs hv
    · rw [Record.magnitude_of_len_eq_zero hlen, Nat.zero_mul]
      exact Nat.two_pow_pos _
  · exact .inr ⟨rfl, not_lt.1 fun hlt => hover.not_ge ((bitlen_add_le_iff hs hv hlen n).2 hlt)⟩
  · exact .inl ⟨rfl, (bitlen_add_le_iff hs hv hlen n).1 hfit⟩

theorem shl_success_iff (n : Nat) : (shl c v n).1 = .success ↔ v.magnitude c * 2 ^ n < 2 ^ c.capBits := by
  obtain ⟨h, hlt⟩ | ⟨h, hle⟩ := shl_status hs hv n <;> rw [h]
  · simpa using hlt
  · simpa using hle

theorem shl_overflow_iff (n : Nat) : (shl c v n).1 = .overflow ↔ 2 ^ c.capBits ≤ v.magnitude c * 2 ^ n := by
  obtain ⟨h, hlt⟩ | ⟨h, hle⟩ := shl_status hs hv n <;> rw [h]
  · simpa using hlt
  · simpa using hle

section result
variable (hc : c.Wf) {n : Nat}
include hc

theorem shl_shaped_and_valid (n : Nat) : (shl c v n).2.Shaped c ∧ (shl c v n).2.Valid c := by
  obtain ⟨h, -⟩ | ⟨h, -⟩ | ⟨h, -, hlen, hfit⟩ := shl_cases c v n <;> rw [h]
  · exact ⟨hs, hv⟩
  · exact ⟨hs, hv⟩
  · exact ⟨shifted_shaped hc hs hv hlen hfit, shifted_valid hc hs hv hlen hfit⟩

theorem magnitude_shl (hok : (shl c v n).1 = .success) : (shl c v n).2.magnitude c = v.magnitude c * 2 ^ n := by
  obtain ⟨h, hsame⟩ | ⟨h, -⟩ | ⟨h, -, hlen, hfit⟩ := shl_cases c v n <;> rw [h] at hok ⊢
  · obtain rfl | hlen := hsame
    · rw [pow_zero, Nat.mul_one]
    · rw [Record.magnitude_of_len_eq_zero hlen, Nat.zero_mul]
  · cases hok
  · exact magnitude_shifted hc hs hv hlen hfit

end result

end shl

/-! ### SHL, outcome by outcome -/

theorem shlCase_eq_overflow {c : Config} {ref n : Nat} {v : Record} :
    shlCase c ref n v = .overflow ↔ ref ≠ 0 ∧ 0 < n ∧ 0 < v.len ∧ c.capBits < v.bitlen c + n := by
  simp only [shlCase, overflows, Bool.and_eq_true, decide_eq_true_eq]
  split_ifs with href hn hlen hover
  · simp [href]
  · simp [hn]
  · simp [hlen]
  · simpa [href, Nat.pos_iff_ne_zero, hn] using hover
  · simp only [false_iff]
    exact fun ⟨_, _, hover'⟩ => hover hover'

theorem status_eq_overflow {k : ShlCase} : k.status = .overflow ↔ k = .overflow := by
  cases k <;> simp [ShlCase.status]

/-- The pure function answers the status of the case, and shifts in case 5 only (R81, R90). -/
theorem shl_eq_of_shlCase {ref : Nat} (href : ref ≠ 0) (c : Config) (v : Record) (n : Nat) :
    shl c v n = ((shlCase c ref n v).status, if shlCase c ref n v = .shifted then shifted c v n else v) := by
  obtain ⟨h, hsame⟩ | ⟨h, hn, hlen, hover⟩ | ⟨h, hn, hlen, hfit⟩ := shl_cases c v n <;> rw [h]
  · obtain hn | hlen := hsame
    · simp [shlCase, href, hn, ShlCase.status]
    · by_cases hn : n = 0 <;> simp [shlCase, href, hn, hlen, ShlCase.status]
  · rw [shlCase_eq_overflow.2 ⟨href, hn, hlen, hover⟩]
    rfl
  · rw [shlCase_eq_shifted.2 ⟨href, hn, hlen, hfit⟩]
    rfl

theorem exec_shl {s : State} {ref : Nat} (hpre : Precondition s ref) (n : Nat) :
    exec (.shl ref n) s = .next (shlComplete ref n s) := exec_shl_next.2 ⟨hpre, rfl⟩

theorem exec_shl_refused {s : State} {ref : Nat} {why : Refusal} (h : contractBreach s ref = some why) (n : Nat) :
    exec (.shl ref n) s = .refused why := by
  simp [exec, execShl, h]

theorem shlComplete_storage_of_ne_shifted {s : State} {ref n : Nat}
    (h : shlCase s.cfg ref n (record s ref) ≠ .shifted) : (shlComplete ref n s).storage = s.storage := by
  rw [shlComplete_storage, if_neg h]

/-- Outside case 5 SHL answers the status of the case and leaves the storage (R81). -/
theorem exec_shl_of_case {s : State} {ref n : Nat} {k : ShlCase} (hpre : Precondition s ref)
    (hcase : shlCase s.cfg ref n (record s ref) = k) (hk : k ≠ .shifted) :
    ∃ t, exec (.shl ref n) s = .next t ∧ Responded s t k.status ∧ t.storage = s.storage := by
  subst hcase
  exact ⟨_, exec_shl hpre n, responded_shlComplete ref n s, shlComplete_storage_of_ne_shifted hk⟩

/-! ### The record after SHL -/

theorem record_shaped (s : State) (r : Nat) : (record s r).Shaped s.cfg := recordOf_shaped s.cfg s.storage r

theorem recordOf_storeShifted {s : State} {ref n : Nat} (hc : s.cfg.Wf) (hv : (record s ref).Valid s.cfg)
    (hlen : 0 < (record s ref).len) (hfit : (record s ref).bitlen s.cfg + n ≤ s.cfg.capBits) :
    recordOf s.cfg (storeShifted ref (record s ref) n s).storage ref = shifted s.cfg (record s ref) n := by
  have hs := record_shaped s ref
  simp only [recordOf, shifted, memRead_storeShifted, if_true, Record.mk.injEq]
  refine ⟨List.map_congr_left fun i hi => ?_, trunc_of_lt (newLen_lt hc hs hv hlen hfit)⟩
  split_ifs with hwritten
  · exact trunc_of_lt (newWord_lt hc hs n i)
  · rw [newWord_of_writtenWords_le (not_lt.1 hwritten)]
    exact (recordOf_word s.cfg s.storage ref (List.mem_range.1 hi)).symm

/-- The record SHL leaves is the one the pure function leaves (R90). -/
theorem record_shlComplete {s : State} {ref : Nat} (hc : s.cfg.Wf) (href : ref ≠ 0)
    (hv : (record s ref).Valid s.cfg) (n : Nat) :
    record (shlComplete ref n s) ref = (shl s.cfg (record s ref) n).2 := by
  rw [shl_eq_of_shlCase href, record, shlComplete_cfg, shlComplete_storage]
  split_ifs with hcase
  · obtain ⟨-, -, hlen, hfit⟩ := shlCase_eq_shifted.1 hcase
    exact recordOf_storeShifted hc hv hlen hfit
  · rfl

theorem record_shlComplete_of_shifts {s : State} {ref n : Nat} (hc : s.cfg.Wf) (hv : (record s ref).Valid s.cfg)
    (h : Shifts s ref n) : record (shlComplete ref n s) ref = shifted s.cfg (record s ref) n := by
  have hcase : shlCase s.cfg ref n (record s ref) = .shifted := shlCase_eq_shifted.2 h
  obtain ⟨href, -⟩ := h
  rw [record_shlComplete hc href hv, shl_eq_of_shlCase href, if_pos hcase]

/-- In case 5 SHL succeeds, and its record is the shifted one. -/
theorem exec_shl_of_shifts {s : State} {ref n : Nat} (hc : s.cfg.Wf) (hpop : isPopulated s.cfg ref = true)
    (hv : (record s ref).Valid s.cfg) (h : Shifts s ref n) :
    ∃ t, exec (.shl ref n) s = .next t ∧ Responded s t .success ∧
      record t ref = shifted s.cfg (record s ref) n := by
  have hresp := responded_shlComplete ref n s
  rw [shlCase_eq_shifted.2 h] at hresp
  exact ⟨_, exec_shl (fun _ => ⟨hpop, hv⟩) n, hresp, record_shlComplete_of_shifts hc hv h⟩

end Sys2Proof.Machine

namespace Sys2Proof.Proofs

open Sys2Proof Sys2Proof.Machine

/-- Settles O16: success, overflow and the new bit length are all read off the shifted magnitude. -/
theorem shiftSucceedsExactlyWhenTheMagnitudeFits : Obligations.ShiftSucceedsExactlyWhenTheMagnitudeFits := by
  intro c v a b hc hs hv
  refine ⟨?_, fun hover hab => ?_, fun hlen hok => ?_⟩
  · rw [shl_success_iff hs hv]
    exact ⟨.inr, fun h => h.elim (fun hzero => by rw [hzero, Nat.zero_mul]; exact Nat.two_pow_pos _) id⟩
  · rw [shl_overflow_iff hs hv] at hover ⊢
    exact hover.trans (Nat.mul_le_mul_left _ (Nat.pow_le_pow_right two_pos hab))
  · obtain ⟨hs', hv'⟩ := shl_shaped_and_valid hs hv hc a
    rw [Record.bitlen_eq_blen_magnitude hs' hv', magnitude_shl hs hv hc hok,
      blen_mul_two_pow (Record.magnitude_ne_zero hv hlen), Record.bitlen_eq_blen_magnitude hs hv]

/-- Settles O17: both ways the magnitude is multiplied by `2^(a + b)`, and it determines the value. -/
theorem twoShiftsComposeToOne : Obligations.TwoShiftsComposeToOne := by
  intro c v a b hc hs hv hok
  have hmag : v.magnitude c * 2 ^ a * 2 ^ b = v.magnitude c * 2 ^ (a + b) := by rw [pow_add, Nat.mul_assoc]
  have hlt := (shl_success_iff hs hv (a + b)).1 hok
  have hle : v.magnitude c * 2 ^ a ≤ v.magnitude c * 2 ^ (a + b) :=
    Nat.mul_le_mul_left _ (Nat.pow_le_pow_right two_pos (Nat.le_add_right a b))
  have hok1 : (shl c v a).1 = .success := (shl_success_iff hs hv a).2 (hle.trans_lt hlt)
  obtain ⟨hs1, hv1⟩ := shl_shaped_and_valid hs hv hc a
  have hmag1 := magnitude_shl hs hv hc hok1
  have hok2 : (shl c (shl c v a).2 b).1 = .success := by rwa [shl_success_iff hs1 hv1, hmag1, hmag]
  obtain ⟨hs2, hv2⟩ := shl_shaped_and_valid hs1 hv1 hc b
  obtain ⟨hs3, hv3⟩ := shl_shaped_and_valid hs hv hc (a + b)
  refine ⟨hok1, hok2, Record.sameValue_of_magnitude_eq hs2 hv2 hs3 hv3 ?_⟩
  rw [magnitude_shl hs1 hv1 hc hok2, hmag1, hmag, magnitude_shl hs hv hc hok]

/-- Settles O22: the boundary separates case 4 from case 5. -/
theorem overflowIsRejectedExactlyAtTheBoundary : Obligations.OverflowIsRejectedExactlyAtTheBoundary := by
  intro s ref n hc href hpop hv hn hlen
  have hpre : Precondition s ref := fun _ => ⟨hpop, hv⟩
  refine ⟨fun hover => ?_, fun hfit => ?_, ?_⟩
  · exact exec_shl_of_case hpre (shlCase_eq_overflow.2 ⟨href, hn, hlen, hover⟩) (by simp)
  · obtain ⟨t, hexec, hresp, -⟩ := exec_shl_of_shifts hc hpop hv ⟨href, hn, hlen, hfit⟩
    exact ⟨t, hexec, hresp⟩
  · simpa using (bitlen_add_le_iff (record_shaped s ref) hv hlen n).not

/-- Settles O24. -/
theorem shiftMultipliesTheMagnitude : Obligations.ShiftMultipliesTheMagnitude := by
  intro s ref n hc hpop hv h
  have hs := record_shaped s ref
  obtain ⟨t, hexec, hresp, hrec⟩ := exec_shl_of_shifts hc hpop hv h
  obtain ⟨-, -, hlen, hfit⟩ := h
  refine ⟨t, hexec, hresp, ?_, (bitlen_add_le_iff hs hv hlen n).1 hfit⟩
  rw [hrec, hresp.cfg, magnitude_shifted hc hs hv hlen hfit]

/-- Settles O25: the record is the pure function's, which keeps validity. -/
theorem recordIsValidAfterEveryResponse : Obligations.RecordIsValidAfterEveryResponse := by
  intro s t ref n hc href hexec
  obtain ⟨hpre, rfl⟩ := exec_shl_next.1 hexec
  obtain ⟨-, hv⟩ := hpre href
  have hs := record_shaped s ref
  have hrec := record_shlComplete hc href hv n
  refine ⟨?_, fun hout => ?_, fun hshifts => ?_⟩
  · obtain ⟨-, hv'⟩ := shl_shaped_and_valid hs hv hc n
    rwa [hrec, shlComplete_cfg]
  · rw [hrec, shl_eq_of_shlCase href, if_neg fun hcase => hout (shlCase_eq_shifted.1 hcase)]
  · have hnew : lenRead (shlComplete ref n s) ref = newLen s.cfg (record s ref) n :=
      congrArg Record.len (record_shlComplete_of_shifts hc hv hshifts)
    obtain ⟨-, -, hlen, hfit⟩ := hshifts
    rw [hnew]
    exact ⟨newLen_eq hc hs hv hlen hfit, (newLen_pos hlen n).ne'⟩

/-- Settles O26. -/
theorem shlIsThePureFunctionOnItsRecord : Obligations.ShlIsThePureFunctionOnItsRecord := by
  intro s ref n hc href hpop hv
  refine ⟨_, exec_shl (fun _ => ⟨hpop, hv⟩) n, ?_, record_shlComplete hc href hv n,
    fun a ha => sameAt_shlComplete n s (.inr ha.symm)⟩
  rw [shl_eq_of_shlCase href]
  exact responded_shlComplete ref n s

/-- Settles O29: an overflow leaves the storage, so the same case applies again. -/
theorem overflowRepeats : Obligations.OverflowRepeats := by
  intro s t ref n hexec hresp
  obtain ⟨hpre, rfl⟩ := exec_shl_next.1 hexec
  have hcase : shlCase s.cfg ref n (record s ref) = .overflow :=
    status_eq_overflow.1 (by simpa [shlComplete_responses] using hresp)
  have hstorage : (shlComplete ref n s).storage = s.storage := shlComplete_storage_of_ne_shifted (by simp [hcase])
  have hrec : record (shlComplete ref n s) ref = record s ref := by
    rw [record, record, hstorage, shlComplete_cfg]
  rw [← hstorage]
  refine exec_shl_of_case (k := .overflow) ?_ ?_ (by simp)
  · rwa [Precondition, hrec, shlComplete_cfg]
  · rw [hrec, shlComplete_cfg, hcase]

/-- Settles O30: the contract, the case and the new record are functions of the record. -/
theorem outcomeDependsOnTheRecordAlone : Obligations.OutcomeDependsOnTheRecordAlone := by
  intro s u t ref n hc hcfg hrec hexec
  obtain ⟨hpre, rfl⟩ := exec_shl_next.1 hexec
  have hpre' : Precondition u ref := fun href => by
    rw [← hcfg, ← hrec href]
    exact hpre href
  have hcase : shlCase u.cfg ref n (record u ref) = shlCase s.cfg ref n (record s ref) := by
    obtain rfl | href := eq_or_ne ref 0
    · rfl
    · rw [← hcfg, hrec href]
  refine ⟨_, _, exec_shl hpre' n, responded_shlComplete ref n s, hcase ▸ responded_shlComplete ref n u,
    fun href => ?_⟩
  obtain ⟨-, hv⟩ := hpre href
  obtain ⟨-, hv'⟩ := hpre' href
  rw [record_shlComplete hc href hv, record_shlComplete (hcfg ▸ hc) href hv', hrec href, hcfg]

/-- Settles O18, by the contract check. -/
theorem shlGoesOnExactlyWithinTheContract : Obligations.ShlGoesOnExactlyWithinTheContract := by
  intro s ref n
  refine ⟨⟨fun ⟨t, hexec⟩ => (exec_shl_next.1 hexec).1, fun hpre => ⟨_, exec_shl hpre n⟩⟩,
    fun href hpop => exec_shl_refused ?_ n, fun hpop hv => exec_shl_refused ?_ n⟩
  · simp [contractBreach, href, hpop]
  · simp [contractBreach, ne_zero_of_isPopulated hpop, hpop, hv]

/-- Settles O19: case 1. -/
theorem nullReferenceGivesNullArgument : Obligations.NullReferenceGivesNullArgument :=
  fun _ _ => ⟨exec_shl_of_case (k := .nullReference) (fun href => absurd rfl href) rfl (by simp), fun _ _ _ => rfl⟩

/-- Settles O20: case 2. -/
theorem zeroShiftLeavesTheRecord : Obligations.ZeroShiftLeavesTheRecord := by
  intro s ref href hpop hv
  refine ⟨exec_shl_of_case (k := .zeroShift) (fun _ => ⟨hpop, hv⟩) ?_ (by simp), fun body c p => ?_⟩
  · simp [shlCase, href]
  · simp [runSequence, href]

/-- Settles O21: case 3; a record without words is valid. -/
theorem zeroValueAlwaysSucceeds : Obligations.ZeroValueAlwaysSucceeds := by
  intro s ref n href hpop hn hlen
  have hrec : (record s ref).len = 0 := hlen
  have hv : (record s ref).Valid s.cfg := by simp [Record.Valid, hrec]
  refine ⟨exec_shl_of_case (k := .zeroValue) (fun _ => ⟨hpop, hv⟩) ?_ (by simp),
    fun body => runSequence_of_len_eq_zero body href hn hrec⟩
  simp [shlCase, href, hn.ne', hrec]

end Sys2Proof.Proofs

/-! Proofs of 41_datapath.md: the split of the shift amount and the overflow test (R100 to R103), the result words and
the new length (R106, R110 to R113), and the two reference access sequences (R115, R116, R118). -/

namespace Sys2Proof.Machine

/-! ### The overflow test -/

theorem overflows_iff {c : Config} {v : Record} {n : Nat} :
    overflows c v n = true ↔ 0 < v.len ∧ c.capBits < v.bitlen c + n := by
  simp [overflows]

theorem overflows_eq_false_iff {c : Config} {v : Record} {n : Nat} (hlen : 0 < v.len) :
    overflows c v n = false ↔ v.bitlen c + n ≤ c.capBits := by
  rw [← Bool.not_eq_true, overflows_iff]
  simp [hlen]

theorem overflows_of_len_eq_zero {c : Config} {v : Record} (hlen : v.len = 0) (n : Nat) : overflows c v n = false := by
  simp [overflows, hlen]

section bitlen
variable {c : Config} {v : Record}

theorem Record.Shaped.blen_word_le (hs : v.Shaped c) (i : Nat) : blen (v.word i) ≤ c.W := blen_le_iff.2 (hs.word_lt i)

theorem Record.Valid.blen_top_pos (hv : v.Valid c) (hlen : 0 < v.len) : 0 < blen (v.word (v.len - 1)) :=
  blen_pos_iff.2 (hv.2 hlen)

theorem Record.lt_bitlen (hv : v.Valid c) (hlen : 0 < v.len) : (v.len - 1) * c.W < v.bitlen c := by
  have htop := hv.blen_top_pos hlen
  rw [Record.bitlen_of_len_pos hlen]
  omega

theorem Record.bitlen_le_len_mul (hs : v.Shaped c) : v.bitlen c ≤ v.len * c.W := by
  obtain hlen | hlen := Nat.eq_zero_or_pos v.len
  · rw [Record.bitlen_of_len_eq_zero hlen]
    exact Nat.zero_le _
  · have htop := hs.blen_word_le (v.len - 1)
    calc v.bitlen c
      _ ≤ (v.len - 1) * c.W + c.W := by rw [Record.bitlen_of_len_pos hlen]; omega
      _ = v.len * c.W := by rw [← Nat.succ_mul, Nat.succ_eq_add_one, Nat.sub_add_cancel hlen]

theorem Record.bitlen_le_capBits (hs : v.Shaped c) (hv : v.Valid c) : v.bitlen c ≤ c.capBits :=
  (Record.bitlen_le_len_mul hs).trans (Nat.mul_le_mul_right _ hv.1)

end bitlen

/-- The two forms of the overflow test agree, because the headroom of a valid value is not negative (R102). -/
theorem overflowsByHeadroom_eq {c : Config} {v : Record} (hs : v.Shaped c) (hv : v.Valid c) (n : Nat) :
    overflowsByHeadroom c v n = overflows c v n := by
  have hcap := Record.bitlen_le_capBits hs hv
  simp only [overflows, overflowsByHeadroom, headroom, Nat.sub_lt_iff_lt_add' hcap]

/-- Both summands are below the power of two above the wider of the two, so one more bit holds the sum (R102). -/
theorem bitlen_add_lt {c : Config} {v : Record} {n : Nat} (hs : v.Shaped c) (hv : v.Valid c) (hn : n < 2 ^ c.SA_BITS) :
    v.bitlen c + n < 2 ^ (max c.SA_BITS (blen c.capBits) + 1) := by
  have hsum : v.bitlen c < 2 ^ max c.SA_BITS (blen c.capBits) :=
    (Record.bitlen_le_capBits hs hv).trans_lt (blen_le_iff.1 (le_max_right _ _))
  have hamount : n < 2 ^ max c.SA_BITS (blen c.capBits) := hn.trans_le (Nat.pow_le_pow_right two_pos (le_max_left _ _))
  rw [pow_succ]
  omega

theorem wordShift_lt_capacity {c : Config} {v : Record} {n : Nat} (hv : v.Valid c) (hlen : 0 < v.len)
    (hfit : v.bitlen c + n ≤ c.capBits) : wordShift c n < c.CAPACITY := by
  have htop := topIndex_le_capacity hv hlen hfit
  rw [topIndex] at htop
  omega

/-! ### The carry-out word -/

theorem carryOut_ne_zero_iff {c : Config} {v : Record} {bs : Nat} :
    carryOut c v bs ≠ 0 ↔ bs ≠ 0 ∧ v.word (v.len - 1) >>> (c.W - bs) ≠ 0 := by
  unfold carryOut
  split_ifs with hbs <;> simp [hbs]

/-- Bits leave the top significant word when its bit length and the shift exceed a word (R103 b). -/
theorem carryOut_ne_zero_iff_lt_blen {c : Config} {v : Record} {bs : Nat} (hs : v.Shaped c) (hv : v.Valid c)
    (hlen : 0 < v.len) (hbs : bs ≤ c.W) : carryOut c v bs ≠ 0 ↔ c.W < blen (v.word (v.len - 1)) + bs := by
  have hout : carryOut c v bs = v.word (v.len - 1) * 2 ^ bs / 2 ^ c.W := by
    rw [carryOut_eq_carryIn hlen, ← carryIn_succ hs hbs, Nat.sub_add_cancel hlen]
  rw [hout, ← blen_mul_two_pow (hv.2 hlen), lt_blen_iff, Nat.div_ne_zero_iff]
  simp

/-- The carry out of a word that the barrel shifter adds to the word above. -/
theorem carryIn_of_ne_zero {bs : Nat} (hbs : bs ≠ 0) (c : Config) (v : Record) (i : Nat) :
    carryIn c v bs i = (if 1 ≤ i then v.word (i - 1) else 0) >>> (c.W - bs) := by
  cases i with
  | zero => simp [carryIn]
  | succ i => simp [carryIn, hbs]

/-! ### The words a shift leaves, and the scan for the new length -/

/-- A word above the bottom one moved, as the barrel shifter puts it together (R104, R108). -/
theorem newWord_wordShift_add_eq_or {c : Config} {v : Record} {i : Nat} (n : Nat) (hi : i < v.len) :
    newWord c v n (wordShift c n + i) =
      trunc c.W (v.word i <<< bitShift c n) ||| carryIn c v (bitShift c n) i := by
  have hlow : ¬ wordShift c n + i < wordShift c n := by omega
  have hmoved : wordShift c n + i < topIndex c v n := by rw [topIndex]; omega
  rw [newWord, if_neg hlow, if_pos hmoved, Nat.add_sub_cancel_left]

theorem topIndex_le_writtenWords (c : Config) (v : Record) (n : Nat) : topIndex c v n ≤ writtenWords c v n :=
  Nat.le_add_right _ _

/-- The words written: those below `t`, and word `t` for a carry-out when the record has one (R46). -/
theorem lt_writtenWords_iff {c : Config} {v : Record} {n j : Nat} : j < writtenWords c v n ↔
    j < topIndex c v n ∨ j = topIndex c v n ∧ bitShift c n ≠ 0 ∧ topIndex c v n < c.CAPACITY := by
  unfold writtenWords
  split_ifs with hcarry
  · rw [Nat.lt_succ_iff_lt_or_eq, and_iff_left hcarry]
  · rw [Nat.add_zero, or_iff_left fun h => hcarry h.2]

theorem newLen_eq_ite {c : Config} {v : Record} {n : Nat} {P : Prop} [Decidable P]
    (h : carryOut c v (bitShift c n) ≠ 0 ↔ P) :
    newLen c v n = if P then topIndex c v n + 1 else topIndex c v n := by
  split_ifs with hP
  · exact newLen_of_carryOut_ne_zero (h.2 hP)
  · exact newLen_of_carryOut_eq_zero (not_not.1 (mt h.1 hP))

theorem newLen_le_writtenWords {c : Config} {v : Record} {n : Nat} (hc : c.Wf) (hs : v.Shaped c) (hv : v.Valid c)
    (hlen : 0 < v.len) (hfit : v.bitlen c + n ≤ c.capBits) : newLen c v n ≤ writtenWords c v n := by
  by_cases hout : carryOut c v (bitShift c n) = 0
  · rw [newLen_of_carryOut_eq_zero hout]
    exact topIndex_le_writtenWords c v n
  · rw [newLen_of_carryOut_ne_zero hout]
    exact lt_writtenWords_iff.2 (.inr ⟨rfl, bitShift_ne_zero_of_carryOut hout,
      topIndex_lt_capacity_of_carryOut hc hs hv hlen hfit hout⟩)

/-- Of the words written, only a carry-out word that is zero can stand at or above the new length. -/
theorem newWord_eq_zero_of_newLen_le {c : Config} {v : Record} {n j : Nat} (hj : newLen c v n ≤ j)
    (hwritten : j < writtenWords c v n) : newWord c v n j = 0 := by
  have hle : topIndex c v n ≤ newLen c v n := Nat.le_add_right _ _
  obtain hmoved | ⟨rfl, hbs, hcap⟩ := lt_writtenWords_iff.1 hwritten
  · omega
  · rw [newWord_topIndex hcap hbs]
    by_contra hout
    rw [newLen_of_carryOut_ne_zero hout] at hj
    omega

/-- A downward scan stops at the highest word that is not zero. -/
theorem scanDown_eq {v : Record} {k n : Nat} (hk : 0 < k) (hkn : k ≤ n) (htop : v.word (k - 1) ≠ 0)
    (hzero : ∀ j, k ≤ j → j < n → v.word j = 0) : scanDown v n = k := by
  induction n, hkn using Nat.le_induction with
  | base =>
    obtain ⟨i, rfl⟩ := Nat.exists_eq_add_one.2 hk
    exact if_pos htop
  | succ n hkn ih =>
    rw [scanDown, if_neg (not_not.2 (hzero n hkn n.lt_succ_self))]
    exact ih fun j hj hjn => hzero j hj (hjn.trans n.lt_succ_self)

/-! ### Shifts by whole words -/

theorem wordShift_mul {c : Config} (hc : c.Wf) (k : Nat) : wordShift c (k * c.W) = k := Nat.mul_div_cancel k hc.1

theorem bitShift_mul (c : Config) (k : Nat) : bitShift c (k * c.W) = 0 := Nat.mul_mod_left k c.W

theorem topIndex_mul {c : Config} (hc : c.Wf) (v : Record) (k : Nat) : topIndex c v (k * c.W) = v.len + k := by
  rw [topIndex, wordShift_mul hc]

/-- R106: words move, and none is changed. -/
theorem newWord_mul {c : Config} {v : Record} (hc : c.Wf) (hs : v.Shaped c) (k j : Nat) :
    newWord c v (k * c.W) j = if j < k then 0 else if j < v.len + k then v.word (j - k) else v.word j := by
  simp only [newWord, wordShift_mul hc, bitShift_mul, topIndex_mul hc, carryIn, true_or, if_true, Nat.shiftLeft_zero,
    trunc_of_lt (hs.word_lt _), Nat.or_zero, ne_eq, not_true_eq_false, and_false, if_false]

theorem newLen_mul {c : Config} (hc : c.Wf) (v : Record) (k : Nat) : newLen c v (k * c.W) = v.len + k := by
  rw [newLen_of_carryOut_eq_zero (by rw [bitShift_mul]; exact if_pos rfl), topIndex_mul hc]

/-! ### The result words in the spec's own formula -/

/-- R110, over the words `f` of a record: the lowest moved word takes no carry, and without a bit shift none does. -/
theorem newWord_eq_of_words {c : Config} {v : Record} {f : Nat → Nat} {j : Nat} (n : Nat) (hs : v.Shaped c)
    (hv : v.Valid c) (hlen : 0 < v.len) (hf : ∀ i < c.CAPACITY, v.word i = f i) (hj : j < c.CAPACITY) :
    newWord c v n j =
      if j < wordShift c n then 0
      else if j = wordShift c n then (f 0 <<< bitShift c n) % 2 ^ c.W
      else if j < v.len + wordShift c n then
        if bitShift c n = 0 then f (j - wordShift c n)
        else (f (j - wordShift c n) <<< bitShift c n) % 2 ^ c.W |||
          (f (j - wordShift c n - 1) >>> (c.W - bitShift c n))
      else if j = v.len + wordShift c n ∧ bitShift c n ≠ 0 then f (v.len - 1) >>> (c.W - bitShift c n)
      else f j := by
  obtain ⟨hcap, -⟩ := hv
  split_ifs with hlow hbottom hmoved hbs hcarry
  · exact newWord_of_lt_wordShift v hlow
  · have h := newWord_wordShift_add_eq_or (c := c) n hlen
    rwa [Nat.add_zero, ← hbottom, carryIn_zero, Nat.or_zero, hf 0 (by omega), trunc] at h
  · obtain ⟨i, rfl⟩ := Nat.exists_eq_add_of_le (not_lt.1 hlow)
    rw [newWord_wordShift_add_eq_or n (by omega), Nat.add_sub_cancel_left, hbs, Nat.shiftLeft_zero,
      trunc_of_lt (hs.word_lt i), carryIn, if_pos (.inl rfl), Nat.or_zero, hf i (by omega)]
  · obtain ⟨i, rfl⟩ := Nat.exists_eq_add_of_le (not_lt.1 hlow)
    rw [newWord_wordShift_add_eq_or n (by omega), Nat.add_sub_cancel_left, carryIn_of_ne_zero hbs, if_pos (by omega),
      hf i (by omega), hf (i - 1) (by omega), trunc]
  · obtain ⟨rfl, hbs⟩ := hcarry
    rw [← hf _ (by omega)]
    exact (newWord_topIndex hj hbs).trans (if_neg hbs)
  · rw [newWord_of_writtenWords_le (not_lt.1 fun hwritten => ?_), hf j hj]
    obtain hlt | ⟨heq, hbs, -⟩ := lt_writtenWords_iff.1 hwritten
    · exact hmoved hlt
    · exact hcarry ⟨heq, hbs⟩

/-! ### The tests before a sequence, in all five cases -/

/-- Behind the tests of R80 a sequence answers the status of the case, after at most two reads and no write; only in
case 5 does its body run. -/
theorem exists_runSequence_eq {c : Config} {m : Memory} {ref : Nat} (n : Nat)
    (hv : ref ≠ 0 → (recordOf c m ref).Valid c) :
    ∃ as : List Addr, as.length ≤ 2 ∧ ∀ body, runSequence body c ref n ⟨m, []⟩ =
      ((shlCase c ref n (recordOf c m ref)).status,
        if shlCase c ref n (recordOf c m ref) = .shifted then body c (shiftJob c m ref n) ⟨m, as.map .read⟩
        else ⟨m, as.map .read⟩) := by
  obtain rfl | href := eq_or_ne ref 0
  · exact ⟨[], by simp, fun _ => rfl⟩
  obtain rfl | hn := Nat.eq_zero_or_pos n
  · refine ⟨[], by simp, fun _ => ?_⟩
    simp [runSequence, shlCase, href, ShlCase.status]
  obtain hlen | hlen := Nat.eq_zero_or_pos (recordOf c m ref).len
  · refine ⟨[⟨ref, .len⟩], by simp, fun body => ?_⟩
    rw [runSequence_of_len_eq_zero body href hn hlen, shlCase, if_neg href, if_neg hn.ne', if_pos hlen]
    rfl
  refine ⟨testReads c m ref, le_rfl, fun body => ?_⟩
  obtain hfit | hover := le_or_gt ((recordOf c m ref).bitlen c + n) c.capBits
  · rw [runSequence_of_fits body href hn (hv href) hlen hfit, shlCase_eq_shifted.2 ⟨href, hn, hlen, hfit⟩]
    rfl
  · rw [runSequence_of_overflow body href hn (hv href) hlen hover, shlCase_eq_overflow.2 ⟨href, hn, hlen, hover⟩]
    rfl

/-! ### What a pass over the words leaves -/

@[simp] theorem Port.read_fst (c : Config) (a : Addr) (p : Port) : (p.read c a).1 = memRead c p.mem a := rfl

@[simp] theorem Port.read_mem (c : Config) (a : Addr) (p : Port) : (p.read c a).2.mem = p.mem := rfl

@[simp] theorem Port.write_mem (c : Config) (a : Addr) (v : Nat) (p : Port) :
    (p.write c a v).mem = memWrite c p.mem a v := rfl

/-- What each round of a descending loop keeps, down by one, holds at the bottom after the loop. -/
theorem forDown_induction {I : Nat → Port → Prop} {lo k : Nat} {body : Nat → Port → Port}
    (hbody : ∀ i < k, ∀ q, I (i + 1) q → I i (body (lo + i) q)) {p : Port} (hp : I k p) :
    I 0 (forDown lo body k p) := by
  induction k generalizing p with
  | zero => exact hp
  | succ k ih =>
    exact ih (fun i hi => hbody i (hi.trans k.lt_succ_self)) (hbody k k.lt_succ_self p hp)

/-- The words `lo .. hi - 1` of record `r` hold `g`, and every other field reads as in `m`. -/
structure Overlay (c : Config) (r : Nat) (m : Memory) (g : Nat → Nat) (lo hi : Nat) (q : Memory) : Prop where
  inside : ∀ j, lo ≤ j → j < hi → memRead c q ⟨r, .word j⟩ = g j
  outside : ∀ a : Addr, (∀ j, lo ≤ j → j < hi → a ≠ ⟨r, .word j⟩) → memRead c q a = memRead c m a

section Overlay
variable {c : Config} {r lo hi : Nat} {m q : Memory} {g : Nat → Nat}

theorem Overlay.empty (c : Config) (r : Nat) (m : Memory) (g : Nat → Nat) (k : Nat) : Overlay c r m g k k m :=
  ⟨fun _ hlo hhi => absurd hhi hlo.not_gt, fun _ _ => rfl⟩

theorem Overlay.read_below (h : Overlay c r m g lo hi q) {i : Nat} (hi : i < lo) :
    memRead c q ⟨r, .word i⟩ = memRead c m ⟨r, .word i⟩ :=
  h.outside _ fun j hlo _ heq => by
    obtain rfl : i = j := by simpa using heq
    exact hi.not_ge hlo

/-- One round of a descending pass: the next word down gets its contents. -/
theorem Overlay.write (h : Overlay c r m g (lo + 1) hi q) (hlo : lo < hi) (hg : g lo < 2 ^ c.W) :
    Overlay c r m g lo hi (memWrite c q ⟨r, .word lo⟩ (g lo)) where
  inside j hlo' hhi := by
    obtain rfl | hlt := hlo'.eq_or_lt
    · rw [memRead_memWrite_self]
      exact trunc_of_lt hg
    · rw [memRead_memWrite_of_ne _ _ _ (by simpa using hlt.ne')]
      exact h.inside j hlt hhi
  outside a ha := by
    rw [memRead_memWrite_of_ne _ _ _ (ha lo le_rfl hlo)]
    exact h.outside a fun j hlo' hhi => ha j (Nat.le_of_succ_le hlo') hhi

/-- A second pass, over what the first one left, down to words that the first one left as the second would. -/
theorem Overlay.trans {m' : Memory} {g' : Nat → Nat} {mid top : Nat} (h : Overlay c r m g lo mid m')
    (h' : Overlay c r m' g' top hi q) (hlo : lo ≤ top) (htop : top ≤ mid) (hhi : mid ≤ hi)
    (hg : ∀ j, lo ≤ j → j < top → g j = g' j) : Overlay c r m g' lo hi q where
  inside j hj hjhi := by
    obtain hjtop | hjtop := lt_or_ge j top
    · rw [h'.read_below hjtop, h.inside j hj (hjtop.trans_le htop), hg j hj hjtop]
    · exact h'.inside j hjtop hjhi
  outside a ha := by
    rw [h'.outside a fun j hj => ha j (hlo.trans hj), h.outside a fun j hj hjmid => ha j hj (hjmid.trans_le hhi)]

/-- A descending pass leaves `g` when each of its rounds writes the next word of `g`. -/
theorem Overlay.forDown {d start k : Nat} {body : Nat → Port → Port} {p : Port}
    (hbody : ∀ i < k, ∀ q, Overlay c r m g (d + i + 1) hi q.mem →
      (body (start + i) q).mem = memWrite c q.mem ⟨r, .word (d + i)⟩ (g (d + i)))
    (hg : ∀ j, g j < 2 ^ c.W) (hhi : d + k ≤ hi) (h : Overlay c r m g (d + k) hi p.mem) :
    Overlay c r m g d hi (forDown start body k p).mem :=
  forDown_induction (I := fun i q => Overlay c r m g (d + i) hi q.mem) (fun i hi' q hq => by
    rw [hbody i hi' q hq]
    exact hq.write (Nat.lt_of_lt_of_le (Nat.add_lt_add_left hi' d) hhi) (hg _)) h

/-- The zero fill, where `g` has zeros at the bottom. -/
theorem Overlay.forDown_zeroWord {k : Job} {p : Port} (hzero : ∀ j < k.ws, g j = 0) (hg : ∀ j, g j < 2 ^ c.W)
    (hhi : k.ws ≤ hi) (h : Overlay c k.ref m g k.ws hi p.mem) :
    Overlay c k.ref m g 0 hi (Machine.forDown 0 (zeroWord c k) k.ws p).mem :=
  Overlay.forDown (fun i hi' q _ => by rw [zeroWord, Port.write_mem, hzero (0 + i) (by rwa [Nat.zero_add])]) hg
    (by rwa [Nat.zero_add]) (by rwa [Nat.zero_add])

end Overlay

/-- The result words from `lo` up are written, and nothing else is. -/
abbrev ShiftedFrom (c : Config) (m : Memory) (ref n lo : Nat) (q : Memory) : Prop :=
  Overlay c ref m (newWord c (recordOf c m ref) n) lo (writtenWords c (recordOf c m ref) n) q

/-- The result words and the new length over the old storage are the storage SHL leaves in case 5. -/
theorem ShiftedFrom.memRead_write_len {s : State} {ref n : Nat} {q : Memory} (hc : s.cfg.Wf)
    (h : ShiftedFrom s.cfg s.storage ref n 0 q) (a : Addr) :
    memRead s.cfg (memWrite s.cfg q ⟨ref, .len⟩ (newLen s.cfg (record s ref) n)) a =
      memRead s.cfg (storeShifted ref (record s ref) n s).storage a := by
  obtain ⟨r, f⟩ := a
  rw [memRead_storeShifted]
  split_ifs with href
  · obtain rfl : r = ref := href
    cases f with
    | len => exact memRead_memWrite_self _ _ _ _
    | word i =>
      rw [memRead_memWrite_of_ne _ _ _ (by simp)]
      dsimp only
      split_ifs with hi
      · exact (h.inside i i.zero_le hi).trans (trunc_of_lt (newWord_lt hc (record_shaped s r) n i)).symm
      · refine h.outside _ fun j _ hj heq => hi ?_
        obtain rfl : i = j := by simpa using heq
        exact hj
  · have hne : ∀ f', (⟨r, f⟩ : Addr) ≠ ⟨ref, f'⟩ := fun f' heq => href (congrArg Addr.ref heq)
    rw [memRead_memWrite_of_ne _ _ _ (hne _), h.outside _ fun j _ _ => hne _]

/-- In case 5 the body leaves the result words, and then the new length. -/
def StoresShifted (body : Config → Job → Port → Port) : Prop :=
  ∀ (c : Config) (m : Memory) (ref n : Nat) (log : List Access), c.Wf → (recordOf c m ref).Valid c →
    0 < (recordOf c m ref).len → (recordOf c m ref).bitlen c + n ≤ c.capBits →
    ∃ q, ShiftedFrom c m ref n 0 q ∧
      (body c (shiftJob c m ref n) ⟨m, log⟩).mem = memWrite c q ⟨ref, .len⟩ (newLen c (recordOf c m ref) n)

/-- A sequence with such a body refines SHL in all five cases. -/
theorem StoresShifted.refines_shl {body : Config → Job → Port → Port} (hbody : StoresShifted body) {s t : State}
    {ref n : Nat} (hc : s.cfg.Wf) (hexec : exec (.shl ref n) s = .next t) :
    Responded s t (runSequence body s.cfg ref n ⟨s.storage, []⟩).1 ∧
      ∀ a, memRead s.cfg (runSequence body s.cfg ref n ⟨s.storage, []⟩).2.mem a = memRead t.cfg t.storage a := by
  obtain ⟨hpre, rfl⟩ := exec_shl_next.1 hexec
  obtain ⟨as, -, hrun⟩ := exists_runSequence_eq (m := s.storage) n fun href => (hpre href).2
  rw [hrun, shlComplete_cfg, shlComplete_storage]
  refine ⟨responded_shlComplete ref n s, fun a => ?_⟩
  change memRead s.cfg (if shlCase s.cfg ref n (record s ref) = .shifted then _ else _ : Port).mem a = _
  split_ifs with hcase
  · obtain ⟨href, -, hlen, hfit⟩ := shlCase_eq_shifted.1 hcase
    obtain ⟨q, hq, hmem⟩ := hbody s.cfg s.storage ref n (as.map .read) hc (hpre href).2 hlen hfit
    rw [hmem]
    exact hq.memRead_write_len hc a
  · rfl

/-! ### The two sequences in case 5 -/

@[simp] theorem shiftJob_ref (c : Config) (m : Memory) (ref n : Nat) : (shiftJob c m ref n).ref = ref := rfl

@[simp] theorem shiftJob_ws (c : Config) (m : Memory) (ref n : Nat) : (shiftJob c m ref n).ws = wordShift c n := rfl

@[simp] theorem shiftJob_bs (c : Config) (m : Memory) (ref n : Nat) : (shiftJob c m ref n).bs = bitShift c n := rfl

/-! ### Sequence B in case 5 -/

/-- Lines B1 and B2: the carry-out word. -/
def carryWord (c : Config) (k : Job) (p : Port) : Port :=
  if k.bs ≠ 0 ∧ k.t < c.CAPACITY then p.write c ⟨k.ref, .word k.t⟩ (k.top >>> (c.W - k.bs)) else p

/-- Lines B3 to B6: the fused pass. -/
def shiftWordsAcross (c : Config) (k : Job) (p : Port) : Port := forDown k.ws (shiftWordAcross c k) k.len p

theorem sequenceB_eq (c : Config) (k : Job) (p : Port) : sequenceB c k p =
    (forDown 0 (zeroWord c k) k.ws (shiftWordsAcross c k (carryWord c k p))).write c ⟨k.ref, .len⟩
      (if k.bs ≠ 0 ∧ k.top >>> (c.W - k.bs) ≠ 0 then k.t + 1 else k.t) := rfl

section passes
variable {c : Config} {m : Memory} {ref n i : Nat} {p q : Port} (hc : c.Wf) (hv : (recordOf c m ref).Valid c)

include hv in
theorem shiftJob_top (hlen : 0 < (recordOf c m ref).len) (n : Nat) :
    (shiftJob c m ref n).top = (recordOf c m ref).word ((recordOf c m ref).len - 1) := by
  obtain ⟨hcap, -⟩ := hv
  exact (recordOf_word c m ref (by omega)).symm

include hc hv in
theorem carryWord_shiftedFrom (hlen : 0 < (recordOf c m ref).len) (log : List Access) :
    ShiftedFrom c m ref n (topIndex c (recordOf c m ref) n) (carryWord c (shiftJob c m ref n) ⟨m, log⟩).mem := by
  rw [ShiftedFrom, carryWord, writtenWords]
  by_cases hcarry : bitShift c n ≠ 0 ∧ topIndex c (recordOf c m ref) n < c.CAPACITY
  · rw [if_pos hcarry, if_pos (by exact hcarry), shiftJob_top hv hlen]
    obtain ⟨hbs, hcap⟩ := hcarry
    have hword : newWord c (recordOf c m ref) n (topIndex c (recordOf c m ref) n) =
        (recordOf c m ref).word ((recordOf c m ref).len - 1) >>> (c.W - bitShift c n) :=
      (newWord_topIndex hcap hbs).trans (if_neg hbs)
    have h := (Overlay.empty c ref m (newWord c (recordOf c m ref) n) _).write (Nat.lt_succ_self _)
      (newWord_lt hc (recordOf_shaped c m ref) n (topIndex c (recordOf c m ref) n))
    rwa [hword] at h
  · rw [if_neg hcarry, if_neg (by exact hcarry)]
    exact Overlay.empty c ref m _ _

include hv in
/-- A round puts the next result word together from two words not yet written. -/
theorem shiftWordAcross_mem (hi : i < (recordOf c m ref).len)
    (h : ShiftedFrom c m ref n (wordShift c n + i + 1) q.mem) :
    (shiftWordAcross c (shiftJob c m ref n) (wordShift c n + i) q).mem =
      memWrite c q.mem ⟨ref, .word (wordShift c n + i)⟩ (newWord c (recordOf c m ref) n (wordShift c n + i)) := by
  obtain ⟨hcap, -⟩ := hv
  have hread : ∀ i' ≤ i, memRead c q.mem ⟨ref, .word i'⟩ = (recordOf c m ref).word i' := fun i' hi' => by
    rw [h.read_below (by omega), recordOf_word c m ref (by omega)]
  rw [newWord_wordShift_add_eq_or n hi]
  simp only [shiftWordAcross, shiftJob_ref, shiftJob_ws, shiftJob_bs, Nat.add_sub_cancel_left]
  by_cases hbs : bitShift c n = 0
  · simp [hbs, hread i le_rfl, carryIn, trunc_of_lt ((recordOf_shaped c m ref).word_lt i)]
  · rw [carryIn_of_ne_zero hbs]
    by_cases hone : 1 ≤ i <;> simp [hbs, hone, hread]

include hc hv in
theorem shiftWordsAcross_shiftedFrom (h : ShiftedFrom c m ref n (topIndex c (recordOf c m ref) n) p.mem) :
    ShiftedFrom c m ref n (wordShift c n) (shiftWordsAcross c (shiftJob c m ref n) p).mem := by
  rw [topIndex, Nat.add_comm] at h
  refine Overlay.forDown (fun i hi q hq => shiftWordAcross_mem hv hi hq)
    (newWord_lt hc (recordOf_shaped c m ref) n) ?_ h
  exact (Nat.add_comm _ _).trans_le (topIndex_le_writtenWords c _ n)

end passes

theorem storesShifted_sequenceB : StoresShifted sequenceB := by
  intro c m ref n log hc hv hlen hfit
  have hmoved := shiftWordsAcross_shiftedFrom hc hv (carryWord_shiftedFrom (n := n) hc hv hlen log)
  rw [sequenceB_eq, Port.write_mem, shiftJob_top hv hlen]
  refine ⟨_, Overlay.forDown_zeroWord (k := shiftJob c m ref n) (fun j hj => newWord_of_lt_wordShift _ hj)
    (newWord_lt hc (recordOf_shaped c m ref) n) ?_ hmoved, ?_⟩
  · exact (Nat.le_add_left _ _).trans (topIndex_le_writtenWords c _ n)
  · rw [newLen_eq_ite carryOut_ne_zero_iff]
    rfl

/-! ### Sequence A in case 5 -/

/-- Lines A1 to A3: the word move and the zero fill. -/
def moveWords (c : Config) (k : Job) (p : Port) : Port :=
  if 0 < k.ws then forDown 0 (zeroWord c k) k.ws (forDown 0 (moveWord c k) k.len p) else p

/-- Lines A4 to A9: the bit shift. -/
def shiftWordsInPlace (c : Config) (k : Job) (p : Port) : Port :=
  if k.bs ≠ 0 then forDown k.ws (shiftWordInPlace c k) (min k.t (c.CAPACITY - 1) + 1 - k.ws) p else p

/-- Lines A10 and A11: the new length, and its write. -/
def renormalise (c : Config) (k : Job) (p : Port) : Port :=
  let (newLen, p) :=
    if k.bs ≠ 0 ∧ k.t < c.CAPACITY then
      let (x, p) := p.read c ⟨k.ref, .word k.t⟩
      (if x ≠ 0 then k.t + 1 else k.t, p)
    else (k.t, p)
  p.write c ⟨k.ref, .len⟩ newLen

theorem sequenceA_eq (c : Config) (k : Job) (p : Port) :
    sequenceA c k p = renormalise c k (shiftWordsInPlace c k (moveWords c k p)) := rfl

theorem renormalise_mem (c : Config) (k : Job) (p : Port) : (renormalise c k p).mem =
    memWrite c p.mem ⟨k.ref, .len⟩
      (if (k.bs ≠ 0 ∧ k.t < c.CAPACITY) ∧ memRead c p.mem ⟨k.ref, .word k.t⟩ ≠ 0 then k.t + 1 else k.t) := by
  by_cases hcarry : k.bs ≠ 0 ∧ k.t < c.CAPACITY
  · simp only [renormalise, if_pos hcarry, and_iff_right hcarry]
    rfl
  · simp only [renormalise, hcarry, false_and, if_false]
    rfl

/-- The words that the shift by `ws` whole words leaves, from `lo` up, are written, and nothing else is. -/
abbrev MovedFrom (c : Config) (m : Memory) (ref n lo : Nat) (q : Memory) : Prop :=
  Overlay c ref m (newWord c (recordOf c m ref) (wordShift c n * c.W)) lo (topIndex c (recordOf c m ref) n) q

/-- What a round of the bit shift writes, in words of the operand: at `t` there is no word to shift (R107 to R109). -/
theorem newWord_eq_shift_or {c : Config} {v : Record} {n i : Nat} (hlen : 0 < v.len) (hbs : bitShift c n ≠ 0)
    (hi : wordShift c n + i < writtenWords c v n) : newWord c v n (wordShift c n + i) =
      trunc c.W ((if i = v.len then 0 else v.word i) <<< bitShift c n) |||
        (if 1 ≤ i then v.word (i - 1) else 0) >>> (c.W - bitShift c n) := by
  rw [← carryIn_of_ne_zero hbs]
  obtain hmoved | ⟨htop, -, hcap⟩ := lt_writtenWords_iff.1 hi
  · rw [topIndex] at hmoved
    rw [if_neg (by omega), newWord_wordShift_add_eq_or n (by omega)]
  · rw [htop, newWord_topIndex hcap hbs, carryOut_eq_carryIn hlen]
    obtain rfl : i = v.len := by rw [topIndex] at htop; omega
    simp [trunc]

/-- A round of the bit shift writes word `ws + i`: it reads that word, unless it is word `t`, and the moved word below,
if there is one (R108, R109). -/
theorem shiftWordInPlace_mem (c : Config) (k : Job) (i : Nat) (p : Port) :
    (shiftWordInPlace c k (k.ws + i) p).mem = memWrite c p.mem ⟨k.ref, .word (k.ws + i)⟩
      (trunc c.W ((if i = k.len then 0 else memRead c p.mem ⟨k.ref, .word (k.ws + i)⟩) <<< k.bs) |||
        (if 1 ≤ i then memRead c p.mem ⟨k.ref, .word (k.ws + (i - 1))⟩ else 0) >>> (c.W - k.bs)) := by
  have htop : k.ws + i = k.t ↔ i = k.len := by rw [Job.t]; omega
  have hbelow : k.ws < k.ws + i ↔ 1 ≤ i := by omega
  unfold shiftWordInPlace
  simp only [htop, hbelow]
  split_ifs with htop hbelow hbelow
  · simp [Nat.add_sub_assoc hbelow]
  · simp
  · simp [Nat.add_sub_assoc hbelow]
  · simp

section passes
variable {c : Config} {m : Memory} {ref n i : Nat} {p q : Port} (hc : c.Wf) (hv : (recordOf c m ref).Valid c)
include hc

include hv in
/-- A round of the word move reads a word that is not yet overwritten. -/
theorem moveWord_mem (hi : i < (recordOf c m ref).len)
    (h : MovedFrom c m ref n (wordShift c n + i + 1) q.mem) :
    (moveWord c (shiftJob c m ref n) (0 + i) q).mem =
      memWrite c q.mem ⟨ref, .word (wordShift c n + i)⟩
        (newWord c (recordOf c m ref) (wordShift c n * c.W) (wordShift c n + i)) := by
  obtain ⟨hcap, -⟩ := hv
  rw [newWord_mul hc (recordOf_shaped c m ref), if_neg (by omega), if_pos (by omega), Nat.add_sub_cancel_left,
    recordOf_word c m ref (by omega), ← h.read_below (by omega)]
  simp [moveWord, Nat.add_comm]

include hv in
/-- The first pass is the shift by whole words (R104, R105); without whole words to shift it changes nothing. -/
theorem moveWords_movedFrom (n : Nat) (log : List Access) :
    MovedFrom c m ref n 0 (moveWords c (shiftJob c m ref n) ⟨m, log⟩).mem := by
  have hs := recordOf_shaped c m ref
  have hlt := newWord_lt hc hs (wordShift c n * c.W)
  have htop : wordShift c n + (recordOf c m ref).len = topIndex c (recordOf c m ref) n := Nat.add_comm _ _
  unfold moveWords
  split_ifs with hws
  · refine Overlay.forDown_zeroWord (k := shiftJob c m ref n) (fun j hj => ?_) hlt
      ((Nat.le_add_right _ _).trans_eq htop)
      (Overlay.forDown (fun i hi q hq => moveWord_mem hc hv hi hq) hlt htop.le ?_)
    · rw [newWord_mul hc hs]
      exact if_pos hj
    · change Overlay c ref m _ (wordShift c n + (recordOf c m ref).len) _ m
      rw [htop]
      exact Overlay.empty c ref m _ _
  · have hzero : wordShift c n = 0 := Nat.eq_zero_of_not_pos hws
    refine ⟨fun j _ hj => ?_, fun _ _ => rfl⟩
    obtain ⟨hcap, -⟩ := hv
    rw [topIndex, hzero] at hj
    rw [newWord_mul hc hs, hzero, if_neg j.not_lt_zero, if_pos hj, Nat.sub_zero]
    exact (recordOf_word c m ref (by omega)).symm

/-- A round of the bit shift puts the next result word together from what the first pass left. -/
theorem shiftWordInPlace_mem_newWord {m' : Memory} (hlen : 0 < (recordOf c m ref).len) (hbs : bitShift c n ≠ 0)
    (hi : wordShift c n + i < writtenWords c (recordOf c m ref) n)
    (hm' : MovedFrom c m ref n 0 m')
    (h : Overlay c ref m' (newWord c (recordOf c m ref) n) (wordShift c n + i + 1) (writtenWords c (recordOf c m ref) n)
      q.mem) :
    (shiftWordInPlace c (shiftJob c m ref n) (wordShift c n + i) q).mem =
      memWrite c q.mem ⟨ref, .word (wordShift c n + i)⟩ (newWord c (recordOf c m ref) n (wordShift c n + i)) := by
  have hle : i ≤ (recordOf c m ref).len := by
    rw [lt_writtenWords_iff, topIndex] at hi
    omega
  have hread : ∀ j < (recordOf c m ref).len, j ≤ i →
      memRead c q.mem ⟨ref, .word (wordShift c n + j)⟩ = (recordOf c m ref).word j := fun j hj hji => by
    rw [h.read_below (by omega), hm'.inside _ (Nat.zero_le _) (by rw [topIndex]; omega),
      newWord_mul hc (recordOf_shaped c m ref), if_neg (by omega), if_pos (by omega), Nat.add_sub_cancel_left]
  have hcur : (if i = (recordOf c m ref).len then 0 else memRead c q.mem ⟨ref, .word (wordShift c n + i)⟩) =
      if i = (recordOf c m ref).len then 0 else (recordOf c m ref).word i :=
    ite_congr rfl (fun _ => rfl) fun htop => hread i (by omega) le_rfl
  have hlow : (if 1 ≤ i then memRead c q.mem ⟨ref, .word (wordShift c n + (i - 1))⟩ else 0) =
      if 1 ≤ i then (recordOf c m ref).word (i - 1) else 0 :=
    ite_congr rfl (fun hone => hread (i - 1) (by omega) (Nat.sub_le _ _)) fun _ => rfl
  rw [newWord_eq_shift_or hlen hbs hi, ← hcur, ← hlow]
  exact shiftWordInPlace_mem c (shiftJob c m ref n) i q

include hv in
/-- Both passes leave the result words: below `ws` the first has left zeros, and without a bit shift it is enough. -/
theorem shiftWordsInPlace_shiftedFrom (hlen : 0 < (recordOf c m ref).len)
    (hfit : (recordOf c m ref).bitlen c + n ≤ c.capBits) (h : MovedFrom c m ref n 0 p.mem) :
    ShiftedFrom c m ref n 0 (shiftWordsInPlace c (shiftJob c m ref n) p).mem := by
  have htop := topIndex_le_capacity hv hlen hfit
  have hws : wordShift c n ≤ topIndex c (recordOf c m ref) n := Nat.le_add_left _ _
  unfold shiftWordsInPlace
  split_ifs with hbs
  · have hcount : wordShift c n + (min (topIndex c (recordOf c m ref) n) (c.CAPACITY - 1) + 1 - wordShift c n) =
        writtenWords c (recordOf c m ref) n := by
      unfold writtenWords
      split_ifs with hcarry
      · omega
      · have hfull : ¬ topIndex c (recordOf c m ref) n < c.CAPACITY := fun hlt => hcarry ⟨hbs, hlt⟩
        omega
    refine h.trans (top := wordShift c n) (Overlay.forDown (fun i hi q hq => ?_)
      (newWord_lt hc (recordOf_shaped c m ref) n) hcount.le ?_) (Nat.zero_le _) hws (topIndex_le_writtenWords c _ n)
      fun j _ hj => ?_
    · exact shiftWordInPlace_mem_newWord hc hlen hbs ((Nat.add_lt_add_left hi _).trans_eq hcount) h hq
    · change Overlay c ref p.mem _ (wordShift c n + (min (topIndex c (recordOf c m ref) n) _ + 1 - wordShift c n)) _ _
      rw [hcount]
      exact Overlay.empty c ref p.mem _ _
    · rw [newWord_of_lt_wordShift _ hj, newWord_mul hc (recordOf_shaped c m ref), if_pos hj]
  · have hzero : bitShift c n = 0 := not_not.1 hbs
    have hwhole : wordShift c n * c.W = n := by
      have hsplit := mul_wordShift_add_bitShift c n
      rwa [hzero, Nat.add_zero, Nat.mul_comm] at hsplit
    have hwritten : writtenWords c (recordOf c m ref) n = topIndex c (recordOf c m ref) n := by
      rw [writtenWords, if_neg fun h => hbs h.1, Nat.add_zero]
    rw [ShiftedFrom, hwritten]
    rwa [MovedFrom, hwhole] at h

include hv in
/-- The renormaliser finds the carry-out in word `t`, if the passes wrote it, and else there was none (R109, R112). -/
theorem renormalise_mem_newLen (hlen : 0 < (recordOf c m ref).len)
    (hfit : (recordOf c m ref).bitlen c + n ≤ c.capBits) (h : ShiftedFrom c m ref n 0 p.mem) :
    (renormalise c (shiftJob c m ref n) p).mem =
      memWrite c p.mem ⟨ref, .len⟩ (newLen c (recordOf c m ref) n) := by
  have hword : bitShift c n ≠ 0 → topIndex c (recordOf c m ref) n < c.CAPACITY →
      memRead c p.mem ⟨ref, .word (topIndex c (recordOf c m ref) n)⟩ =
        carryOut c (recordOf c m ref) (bitShift c n) := fun hbs hcap => by
    rw [h.inside _ (Nat.zero_le _) (lt_writtenWords_iff.2 (.inr ⟨rfl, hbs, hcap⟩)), newWord_topIndex hcap hbs]
  have hout : carryOut c (recordOf c m ref) (bitShift c n) ≠ 0 ↔
      (bitShift c n ≠ 0 ∧ topIndex c (recordOf c m ref) n < c.CAPACITY) ∧
        memRead c p.mem ⟨ref, .word (topIndex c (recordOf c m ref) n)⟩ ≠ 0 := by
    constructor
    · intro hne
      have hbs := bitShift_ne_zero_of_carryOut hne
      have hcap := topIndex_lt_capacity_of_carryOut hc (recordOf_shaped c m ref) hv hlen hfit hne
      exact ⟨⟨hbs, hcap⟩, by rwa [hword hbs hcap]⟩
    · rintro ⟨⟨hbs, hcap⟩, hne⟩
      rwa [hword hbs hcap] at hne
  rw [renormalise_mem, newLen_eq_ite hout]
  rfl

end passes

theorem storesShifted_sequenceA : StoresShifted sequenceA := by
  intro c m ref n log hc hv hlen hfit
  have h := shiftWordsInPlace_shiftedFrom hc hv hlen hfit (moveWords_movedFrom hc hv n log)
  exact ⟨_, h, renormalise_mem_newLen hc hv hlen hfit h⟩

/-! ### The number of accesses -/

/-- How many reads a port has made. -/
def Port.reads (p : Port) : Nat := (readsOf p.log).length

/-- How many writes a port has made. -/
def Port.writes (p : Port) : Nat := (writesOf p.log).length

section counts
variable (c : Config) (a : Addr) (v : Nat) (p : Port)

@[simp] theorem Port.reads_read : (p.read c a).2.reads = p.reads + 1 := by simp [Port.reads, Port.read, readsOf]

@[simp] theorem Port.reads_write : (p.write c a v).reads = p.reads := by simp [Port.reads, Port.write, readsOf]

@[simp] theorem Port.writes_read : (p.read c a).2.writes = p.writes := by simp [Port.writes, Port.read, writesOf]

@[simp] theorem Port.writes_write : (p.write c a v).writes = p.writes + 1 := by simp [Port.writes, Port.write, writesOf]

end counts

theorem Port.reads_map_read (m : Memory) (as : List Addr) : (Port.mk m (as.map .read)).reads = as.length := by
  simp [Port.reads, readsOf, List.filterMap_map]

theorem Port.writes_map_read (m : Memory) (as : List Addr) : (Port.mk m (as.map .read)).writes = 0 := by
  simp [Port.writes, writesOf, List.filterMap_map]

/-- A loop whose rounds each add at most `b` to a count adds at most `b` for each round. -/
theorem count_forDown_le {f : Port → Nat} {b lo : Nat} {body : Nat → Port → Port}
    (hbody : ∀ j q, f (body j q) ≤ f q + b) (k : Nat) (p : Port) : f (forDown lo body k p) ≤ f p + b * k :=
  forDown_induction (I := fun i q => f q + b * i ≤ f p + b * k) (fun i _ q hq => by
    have := hbody (lo + i) q
    rw [Nat.mul_succ] at hq
    omega) le_rfl

section rounds
variable (c : Config) (k : Job) (p : Port)

theorem zeroWord_reads (j : Nat) : (zeroWord c k j p).reads = p.reads := Port.reads_write c _ 0 p

theorem zeroWord_writes (j : Nat) : (zeroWord c k j p).writes = p.writes + 1 := Port.writes_write c _ 0 p

theorem zeroWords_reads_le (j : Nat) : (forDown 0 (zeroWord c k) j p).reads ≤ p.reads := by
  have hloop := count_forDown_le (b := 0) (lo := 0) (fun i q => (zeroWord_reads c k q i).le) j p
  rwa [Nat.zero_mul, Nat.add_zero] at hloop

theorem zeroWords_writes_le (j : Nat) : (forDown 0 (zeroWord c k) j p).writes ≤ p.writes + j := by
  have hloop := count_forDown_le (lo := 0) (fun i q => (zeroWord_writes c k q i).le) j p
  rwa [Nat.one_mul] at hloop

theorem moveWord_reads (j : Nat) : (moveWord c k j p).reads = p.reads + 1 := by simp [moveWord]

theorem moveWord_writes (j : Nat) : (moveWord c k j p).writes = p.writes + 1 := by simp [moveWord]

theorem moveWords_reads_le : (moveWords c k p).reads ≤ p.reads + k.len := by
  unfold moveWords
  split_ifs
  · have hmove := count_forDown_le (lo := 0) (fun j q => (moveWord_reads c k q j).le) k.len p
    have hzero := zeroWords_reads_le c k (forDown 0 (moveWord c k) k.len p) k.ws
    omega
  · omega

theorem moveWords_writes_le : (moveWords c k p).writes ≤ p.writes + k.t := by
  unfold moveWords
  split_ifs
  · have hmove := count_forDown_le (lo := 0) (fun j q => (moveWord_writes c k q j).le) k.len p
    have hzero := zeroWords_writes_le c k (forDown 0 (moveWord c k) k.len p) k.ws
    rw [Job.t]
    omega
  · omega

theorem shiftWordInPlace_reads_le (j : Nat) : (shiftWordInPlace c k j p).reads ≤ p.reads + 2 := by
  unfold shiftWordInPlace
  split_ifs <;> simp

theorem shiftWordInPlace_writes (j : Nat) : (shiftWordInPlace c k j p).writes = p.writes + 1 := by
  unfold shiftWordInPlace
  split_ifs <;> simp

theorem shiftWordsInPlace_reads_le (hcap : 1 ≤ c.CAPACITY) :
    (shiftWordsInPlace c k p).reads ≤ p.reads + 2 * (c.CAPACITY - k.ws) := by
  unfold shiftWordsInPlace
  split_ifs
  · have hloop := count_forDown_le (lo := k.ws) (fun j q => shiftWordInPlace_reads_le c k q j)
      (min k.t (c.CAPACITY - 1) + 1 - k.ws) p
    omega
  · omega

theorem shiftWordsInPlace_writes_le (hcap : 1 ≤ c.CAPACITY) :
    (shiftWordsInPlace c k p).writes ≤ p.writes + (c.CAPACITY - k.ws) := by
  unfold shiftWordsInPlace
  split_ifs
  · have hloop := count_forDown_le (lo := k.ws) (fun j q => (shiftWordInPlace_writes c k q j).le)
      (min k.t (c.CAPACITY - 1) + 1 - k.ws) p
    omega
  · omega

theorem renormalise_reads_le : (renormalise c k p).reads ≤ p.reads + 1 := by
  unfold renormalise
  split_ifs <;> simp

theorem renormalise_writes : (renormalise c k p).writes = p.writes + 1 := by
  unfold renormalise
  split_ifs <;> simp

theorem sequenceA_reads_le (hcap : 1 ≤ c.CAPACITY) :
    (sequenceA c k p).reads ≤ p.reads + k.len + 2 * (c.CAPACITY - k.ws) + 1 := by
  have hmove := moveWords_reads_le c k p
  have hshift := shiftWordsInPlace_reads_le c k (moveWords c k p) hcap
  have hlen := renormalise_reads_le c k (shiftWordsInPlace c k (moveWords c k p))
  rw [sequenceA_eq]
  omega

theorem sequenceA_writes_le (hcap : 1 ≤ c.CAPACITY) :
    (sequenceA c k p).writes ≤ p.writes + k.t + (c.CAPACITY - k.ws) + 1 := by
  have hmove := moveWords_writes_le c k p
  have hshift := shiftWordsInPlace_writes_le c k (moveWords c k p) hcap
  rw [sequenceA_eq, renormalise_writes]
  omega

theorem carryWord_reads : (carryWord c k p).reads = p.reads := by
  unfold carryWord
  split_ifs <;> simp

theorem carryWord_writes_le : (carryWord c k p).writes ≤ p.writes + 1 := by
  unfold carryWord
  split_ifs <;> simp

theorem shiftWordAcross_writes (j : Nat) : (shiftWordAcross c k j p).writes = p.writes + 1 := by
  unfold shiftWordAcross
  split_ifs <;> simp

/-- A round of the fused pass reads two words, and the lowest one a single word: it has no word below. -/
theorem shiftWordAcross_reads_le (i : Nat) :
    (shiftWordAcross c k (k.ws + i) p).reads ≤ p.reads + (if 1 ≤ i then 2 else 1) := by
  simp only [shiftWordAcross, Nat.add_sub_cancel_left]
  by_cases hone : 1 ≤ i
  · split_ifs <;> simp
  · simp [hone]

theorem shiftWordsAcross_reads_le : (shiftWordsAcross c k p).reads ≤ p.reads + (2 * k.len - 1) :=
  forDown_induction (I := fun i q => q.reads + (2 * i - 1) ≤ p.reads + (2 * k.len - 1)) (fun i _ q hq => by
    have hround := shiftWordAcross_reads_le c k q i
    split_ifs at hround <;> omega) le_rfl

theorem sequenceB_reads_le : (sequenceB c k p).reads ≤ p.reads + (2 * k.len - 1) := by
  have hmove := shiftWordsAcross_reads_le c k (carryWord c k p)
  have hzero := zeroWords_reads_le c k (shiftWordsAcross c k (carryWord c k p)) k.ws
  rw [carryWord_reads] at hmove
  rw [sequenceB_eq, Port.reads_write]
  omega

theorem shiftWordsAcross_writes_le : (shiftWordsAcross c k p).writes ≤ p.writes + k.len := by
  have hloop := count_forDown_le (lo := k.ws) (fun j q => (shiftWordAcross_writes c k q j).le) k.len p
  rwa [Nat.one_mul] at hloop

theorem sequenceB_writes_le : (sequenceB c k p).writes ≤ p.writes + k.t + 2 := by
  have hcarry := carryWord_writes_le c k p
  have hmove := shiftWordsAcross_writes_le c k (carryWord c k p)
  have hzero := zeroWords_writes_le c k (shiftWordsAcross c k (carryWord c k p)) k.ws
  rw [sequenceB_eq, Port.writes_write, Job.t]
  omega

end rounds

end Sys2Proof.Machine

namespace Sys2Proof.Proofs

open Sys2Proof Sys2Proof.Machine

/-- Settles O8: division with remainder, and the index bound of a passed overflow test. -/
theorem shiftAmountSplitsIntoWordsAndBits : Obligations.ShiftAmountSplitsIntoWordsAndBits := by
  intro c s hc
  refine ⟨rfl, rfl, ?_, Nat.le_sub_one_of_lt (bitShift_lt hc s), fun hs => ?_, fun v _ hv hlen hpass => ?_,
    fun p hp => ⟨?_, ?_⟩, rfl⟩
  · rw [Nat.mul_comm, mul_wordShift_add_bitShift]
  · exact Nat.div_le_div_right (Nat.le_sub_one_of_lt hs)
  · exact wordShift_lt_capacity hv hlen ((overflows_eq_false_iff hlen).1 hpass)
  · rw [wordShift, hp, Nat.shiftRight_eq_div_pow]
  · rw [bitShift, hp, Nat.and_two_pow_sub_one_eq_mod]

/-- Settles O9: the top significant word has between one bit and `W`. -/
theorem operandBitLengthIsBounded : Obligations.OperandBitLengthIsBounded := by
  intro c v _ hs hv
  refine ⟨fun hlen => ⟨Record.bitlen_of_len_pos hlen, hv.blen_top_pos hlen, hs.blen_word_le _,
      Record.lt_bitlen hv hlen, Record.bitlen_le_len_mul hs, Nat.mul_le_mul_right _ hv.1, fun u hu hword => ?_⟩,
    fun hlen => ⟨Record.bitlen_of_len_eq_zero hlen, overflows_of_len_eq_zero hlen⟩⟩
  rw [Record.bitlen_of_len_pos (hu ▸ hlen), Record.bitlen_of_len_pos hlen, hu, hword]

/-- Settles O10: the headroom of a valid value is not negative, and a value of one bit has a word. -/
theorem overflowTestCannotWrap : Obligations.OverflowTestCannotWrap := by
  refine ⟨fun c v s _ hs hv => ⟨overflows_iff, (overflowsByHeadroom_eq hs hv s).symm, fun hlen => ?_,
    bitlen_add_lt hs hv⟩, fun v hbits => overflows_iff.2 ⟨?_, ?_⟩⟩
  · have hcap := Record.bitlen_le_capBits hs hv
    rw [overflows_eq_false_iff hlen]
    exact (Nat.le_sub_iff_add_le' hcap).symm
  · exact Nat.pos_of_ne_zero fun hlen => by simp [Record.bitlen_of_len_eq_zero hlen] at hbits
  · rw [hbits]
    decide

/-- Settles O11: `L` exceeds the words below the top one, so `t` is within the record, and a carry-out has a word. -/
theorem passedOverflowTestKeepsIndicesInRange : Obligations.PassedOverflowTestKeepsIndicesInRange := by
  intro c v s hc hs hv hlen _ hfit
  have htop := topIndex_le_capacity hv hlen hfit
  have hbits := Record.lt_bitlen hv hlen
  refine ⟨htop, ?_, wordShift_lt_capacity hv hlen hfit, by omega,
    carryOut_ne_zero_iff_lt_blen hs hv hlen (bitShift_lt hc s).le, fun hfull => ?_,
    newLen_le_capacity hc hs hv hlen hfit⟩
  · rw [topIndex] at htop
    omega
  · by_contra hout
    exact (topIndex_lt_capacity_of_carryOut hc hs hv hlen hfit hout).ne hfull

/-- Settles O12: the shifted record is a valid value of `L + s` bits. -/
theorem newLengthIsTheWordsNeeded : Obligations.NewLengthIsTheWordsNeeded :=
  fun _ _ s hc hs hv hlen _ hfit =>
    ⟨newLen_eq hc hs hv hlen hfit, (newLen_pos hlen s).ne', newLen_lt hc hs hv hlen hfit⟩

/-- Settles O13: the top word of the result is not zero, and the words written above it are. -/
theorem scanFromTheHighestWrittenWordFindsTheNewLength :
    Obligations.ScanFromTheHighestWrittenWordFindsTheNewLength := by
  intro c v s hc hs hv hlen _ hfit
  refine scanDown_eq (newLen_pos hlen s) (newLen_le_writtenWords hc hs hv hlen hfit)
    (shifted_top_ne_zero hc hs hv hlen hfit) fun j hj hwritten => ?_
  rw [shifted_word, newWord_eq_zero_of_newLen_le hj hwritten, ite_self]

/-- Settles O14: the closed form with no bit shift. -/
theorem wholeWordShiftMovesWordsOnly : Obligations.WholeWordShiftMovesWordsOnly := by
  intro c v k hc hs hv hlen hk hfit
  have hamount : 0 < k * c.W := Nat.mul_pos hk hc.1
  have hshl : shl c v (k * c.W) = (.success, shifted c v (k * c.W)) := by
    rw [shl, if_neg hamount.ne', if_neg hlen.ne', if_neg hfit.not_gt]
  rw [hshl]
  refine ⟨rfl, newLen_mul hc v k, fun j hj => ?_⟩
  rw [shifted_word_of_lt v _ hj, newWord_mul hc hs]

/-- Settles O23: the record is the shifted one, and what SHL leaves alone is its frame. -/
theorem shiftWritesTheResultWords : Obligations.ShiftWritesTheResultWords := by
  intro s ref n hc hpop hv h
  have hs := record_shaped s ref
  obtain ⟨t, hexec, hresp, hrec⟩ := exec_shl_of_shifts hc hpop hv h
  obtain ⟨-, -, hlen, -⟩ := h
  have hword : ∀ i < s.cfg.CAPACITY, (record s ref).word i = wordRead s ref i := fun i => recordOf_word _ _ _
  obtain ⟨-, -, hframe⟩ := shlFrame s t ref n hexec
  refine ⟨t, hexec, hresp, fun j hj => ?_, ?_, fun a ha => hframe a fun ⟨_, hset⟩ => ha hset⟩
  · calc wordRead t ref j
      _ = (record t ref).word j := (recordOf_word _ _ _ (by rwa [hresp.cfg])).symm
      _ = newWord s.cfg (record s ref) n j := by rw [hrec, shifted_word_of_lt _ _ hj]
      _ = _ := newWord_eq_of_words n hs hv hlen hword hj
  · calc lenRead t ref
      _ = newLen s.cfg (record s ref) n := congrArg Record.len hrec
      _ = _ := by
        have hcap := hv.1
        simp only [newLen, carryOut_ne_zero_iff, hword _ (show (record s ref).len - 1 < s.cfg.CAPACITY by omega)]
        rfl

/-- Settles O31: case by case, and in case 5 the second pass shifts what the first one moved. -/
theorem sequenceALeavesTheSameRecord : Obligations.SequenceALeavesTheSameRecord :=
  fun _ _ _ _ hc hexec => storesShifted_sequenceA.refines_shl hc hexec

/-- Settles O32: case by case, and in case 5 the fused pass reads each word before it is written. -/
theorem sequenceBLeavesTheSameRecord : Obligations.SequenceBLeavesTheSameRecord :=
  fun _ _ _ _ hc hexec => storesShifted_sequenceB.refines_shl hc hexec

/-- Settles O35: two reads at most before case 5, and there the loops' rounds, with `t` within the record. -/
theorem accessCountsAreBoundedByCapacity : Obligations.AccessCountsAreBoundedByCapacity := by
  intro c m ref n hc hv
  obtain ⟨-, hcap, -⟩ := hc
  obtain ⟨as, has, hrun⟩ := exists_runSequence_eq n hv
  have hreads := Port.reads_map_read m as
  have hwrites := Port.writes_map_read m as
  rw [hrun, hrun]
  change Port.reads (ite _ _ _) ≤ _ ∧ Port.writes (ite _ _ _) ≤ _ ∧ Port.reads (ite _ _ _) ≤ _ ∧
    Port.writes (ite _ _ _) ≤ _
  split_ifs with hcase
  · obtain ⟨href, -, hlen, hfit⟩ := shlCase_eq_shifted.1 hcase
    have htop : (shiftJob c m ref n).t ≤ c.CAPACITY := topIndex_le_capacity (hv href) hlen hfit
    have hlt : 0 < (shiftJob c m ref n).len := hlen
    have hA := sequenceA_reads_le c (shiftJob c m ref n) ⟨m, as.map .read⟩ hcap
    have hA' := sequenceA_writes_le c (shiftJob c m ref n) ⟨m, as.map .read⟩ hcap
    have hB := sequenceB_reads_le c (shiftJob c m ref n) ⟨m, as.map .read⟩
    have hB' := sequenceB_writes_le c (shiftJob c m ref n) ⟨m, as.map .read⟩
    rw [Job.t] at *
    omega
  · omega

end Sys2Proof.Proofs

/-! Proofs of 60_exceptions.md: what an error changes (R136). -/

namespace Sys2Proof.Proofs

open Sys2Proof Sys2Proof.Machine

/-- Settles O28: only case 5 stores, and its status is `Success`. -/
theorem errorsChangeOnlyThePhase : Obligations.ErrorsChangeOnlyThePhase := by
  intro s t ref n st hexec hresp hst
  obtain ⟨-, rfl⟩ := exec_shl_next.1 hexec
  obtain rfl : (shlCase s.cfg ref n (record s ref)).status = st := by simpa [shlComplete_responses] using hresp
  have hcase : shlCase s.cfg ref n (record s ref) ≠ .shifted := fun hshifted => hst (congrArg ShlCase.status hshifted)
  exact ⟨responded_shlComplete ref n s, shlComplete_storage_of_ne_shifted hcase, phaseOf_shlComplete_active ref n s⟩

end Sys2Proof.Proofs

/-! Proofs of 70_reset_and_hazards.md: under the invariant every step within the host's contract goes on (R152, R153),
and every command in flight completes (R156). -/

namespace Sys2Proof.Machine

/-! ### Steps within the contract go on -/

/-- COMPLETE goes on: the command in flight meets the precondition of R80. -/
theorem Inv.complete_continues {s : State} (h : Inv s) (e : Nat) : Continues (complete e s) := by
  cases hp : phaseOf s e with
  | idle => exact ⟨s, complete_of_idle hp⟩
  | busy ref n =>
    obtain ⟨-, hpre⟩ := h.inFlight _ (busy_mem_phases_iff.2 ⟨e, hp⟩)
    exact ⟨_, (complete_of_busy hp).trans (exec_shl_next.2 ⟨hpre, rfl⟩)⟩

/-- A presentation within the contract is accepted, or waits while its engine completes (R66, R28). -/
theorem Inv.present_continues {s : State} (h : Inv s) {e cmd : Nat} (hev : (Event.present e cmd).Conforms s) :
    Continues (present e cmd s) := by
  obtain ⟨he, hcmd⟩ := hev
  cases hd : decode s.cfg cmd with
  | error err => simp [hd] at hcmd
  | ok i =>
    obtain ⟨ref, n⟩ := i
    rw [hd] at hcmd
    obtain ⟨hfree, hpre⟩ := hcmd
    by_cases hp : phaseOf s e = .idle
    · exact ⟨_, (present_of_idle he hd hfree hp).trans (accept_next.2 ⟨hpre, rfl⟩)⟩
    · have hwait : Inv { s with agenda := .present e cmd :: s.agenda } := h.of_fields_eq rfl rfl rfl h.activeEngine
      rw [present_of_busy he hd hfree hp]
      exact hwait.complete_continues e

theorem Inv.perform_continues {s : State} (h : Inv s) {ev : Event} (hev : ev.Conforms s) :
    Continues (perform ev s) := by
  cases ev with
  | present e cmd => exact h.present_continues hev
  | complete e => exact h.complete_continues e
  | read a =>
    obtain ⟨haddr, hfree⟩ := hev
    exact ⟨_, hostRead_next.2 ⟨haddr, hfree, rfl⟩⟩
  | write a v =>
    obtain ⟨haddr, hfree⟩ := hev
    exact ⟨_, hostWrite_next.2 ⟨haddr, hfree, rfl⟩⟩
  | take => exact ⟨_, rfl⟩
  | reset => exact ⟨_, rfl⟩

theorem Inv.progress_continues {s : State} (h : Inv s) : Continues (progress s) := by
  unfold progress
  cases firstBusy s with
  | none => exact ⟨s, rfl⟩
  | some e => exact h.complete_continues e

/-! ### Commands in flight complete -/

/-- How many engines have a command in flight. -/
def busyCount (s : State) : Nat := s.phases.countP (· ≠ .idle)

theorem busyCount_eq_zero_iff {s : State} : busyCount s = 0 ↔ ∀ p ∈ s.phases, p = .idle := by
  simp [busyCount, List.countP_eq_zero]

theorem Inv.busyCount_le {s : State} (h : Inv s) : busyCount s ≤ s.cfg.NENGINES :=
  h.engines ▸ List.countP_le_length

/-- An engine that becomes `IDLE` is one fewer in flight. -/
theorem busyCount_of_set_idle {s t : State} {e ref n : Nat} (hbusy : phaseOf s e = .busy ref n)
    (hphases : t.phases = s.phases.set e .idle) : busyCount t + 1 = busyCount s := by
  obtain ⟨hlt, hget⟩ := List.getElem?_eq_some_iff.1 (phaseOf_eq_busy_iff.1 hbusy)
  have hpos : 0 < busyCount s := List.countP_pos_iff.2 ⟨_, busy_mem_phases_iff.2 ⟨e, hbusy⟩, by simp⟩
  have hset : busyCount t = busyCount s - 1 := by
    rw [busyCount, hphases, List.countP_set hlt]
    simp [hget, busyCount]
  omega

theorem phaseOf_ne_idle_of_firstBusy {s : State} {e : Nat} (h : firstBusy s = some e) : phaseOf s e ≠ .idle := by
  obtain ⟨hlt, hbusy, -⟩ := List.findIdx?_eq_some_iff_getElem.1 h
  rw [phaseOf, List.getD_eq_getElem _ _ hlt]
  simpa using hbusy

/-- The ways the machine's own progress ends in a next state: no command is in flight and nothing happens (R20), or one
of them completes (R156). -/
theorem progress_next {s t : State} (h : progress s = .next t) : (busyCount s = 0 ∧ t = s) ∨
    ∃ e ref n, phaseOf s e = .busy ref n ∧ t = shlComplete ref n { s with active := e } := by
  unfold progress at h
  cases hf : firstBusy s with
  | none =>
    obtain rfl : s = t := by simpa [hf] using h
    exact .inl ⟨busyCount_eq_zero_iff.2 (by simpa [firstBusy] using hf), rfl⟩
  | some e =>
    rw [hf] at h
    obtain ⟨hidle, -⟩ | ⟨ref, n, hbusy, -, rfl⟩ := complete_next h
    · exact absurd hidle (phaseOf_ne_idle_of_firstBusy hf)
    · exact .inr ⟨e, ref, n, hbusy, rfl⟩

theorem run_succ_of_step {s t : State} (h : step s = .next t) (k : Nat) :
    Host.Core.run Sys2Proof.core (k + 1) s = Host.Core.run Sys2Proof.core k t := by
  simp only [Host.Core.run, core_step, h]

/-- With no event to come, `k` steps complete the commands in flight, one by one, if there are no more than `k`. -/
theorem Inv.run_completes_all {k : Nat} {s : State} (h : Inv s) (hag : s.agenda = []) (hk : busyCount s ≤ k) :
    ∃ t, Host.Core.run Sys2Proof.core k s = .next t ∧ busyCount t = 0 ∧
      t.responses.length = s.responses.length + busyCount s := by
  induction k generalizing s with
  | zero =>
    have hnone : busyCount s = 0 := Nat.le_zero.1 hk
    exact ⟨s, rfl, hnone, by rw [hnone, Nat.add_zero]⟩
  | succ k ih =>
    obtain ⟨u, hprogress⟩ := h.progress_continues
    have hstep : step s = .next u := (step_of_agenda_nil hag).trans hprogress
    rw [run_succ_of_step hstep]
    obtain ⟨hnone, rfl⟩ | ⟨e, ref, n, hbusy, rfl⟩ := progress_next hprogress
    · exact ih h hag (by omega)
    · have hcount := busyCount_of_set_idle hbusy (shlComplete_phases ref n { s with active := e })
      have hone : (Machine.shlComplete ref n { s with active := e }).responses.length = s.responses.length + 1 := by
        simp [shlComplete_responses]
      obtain ⟨t, ht, hidle, hresponses⟩ := ih (h.of_moved (step_moved hstep)) ((shlComplete_agenda _ _ _).trans hag)
        (by omega)
      exact ⟨t, ht, hidle, by omega⟩

end Sys2Proof.Machine

namespace Sys2Proof.Proofs

open Sys2Proof Sys2Proof.Machine

/-- Settles O48: an event within the contract is performed, and with no event the machine's own progress goes on. -/
theorem stepsWithinTheContractGoOn : Obligations.StepsWithinTheContractGoOn := by
  intro s hinv hconforms
  cases hag : s.agenda with
  | nil =>
    rw [step_of_agenda_nil hag]
    exact hinv.progress_continues
  | cons ev rest =>
    rw [step_of_agenda_cons hag]
    have hrest : Inv { s with agenda := rest } := hinv.of_fields_eq rfl rfl rfl hinv.activeEngine
    have hev : ev.Conforms { s with agenda := rest } := hconforms ev rest hag
    exact hrest.perform_continues hev

/-- Settles O50, by induction on the number of steps: each completes one of the commands still in flight. -/
theorem commandsInFlightAllComplete : Obligations.CommandsInFlightAllComplete := by
  intro s hinv hag
  obtain ⟨t, hrun, hidle, hresponses⟩ := hinv.run_completes_all hag hinv.busyCount_le
  refine ⟨t, hrun, busyCount_eq_zero_iff.1 hidle, ?_⟩
  rw [hresponses, busyCount, List.countP_eq_length_filter]

end Sys2Proof.Proofs
